-- ==== Sys2Proof/Word.lean ====
section
/-! DEFINITION. The values SYNTH-VOICE works on: its number domain NUM, the opcode and tag fields, the two closed
sets (waveforms, envelope stages) and the command word. -/

namespace Sys2Proof

/-- The numeric domain `NUM` (rules R6, R11; decision D1) of the machine that runs: the exact rationals. Every value that a
program can write down (rule R56) is one, and every rule but the sine maps rationals to rationals (rule R6). DESIGN
CHOICE, log entry 1. The meanings themselves are written for any domain (`Arith` in Config.lean); the reals are one. -/
abbrev NUM := Rat

/-- The `op` field of a command word, `cmd[7:0]` (rule R49). -/
abbrev Op := BitVec 8

/-- The `wave` field of a command word, `cmd[9:8]` (rules R24, R49). -/
abbrev Tag := BitVec 2

/-- The three waveforms (rule R24). The reserved fourth tag is no waveform (U10). -/
inductive Wave where
  | sine
  | square
  | saw
deriving DecidableEq, Repr

/-- The five envelope stages (rule R20). The patterns 5 to 7 do not exist (U9). -/
inductive Stage where
  | attack
  | decay
  | sustain
  | release
  | off
deriving DecidableEq, Repr

/-- A command word (rule R49): the record `(op : 8 bits, wave : 2 bits, arg : NUM)`, for the domain `N`. -/
structure CmdWord (N : Type) where
  op   : Op
  wave : Tag
  arg  : N
deriving DecidableEq, Repr

end Sys2Proof
end

