-- ==== Sys2Proof/Config.lean ====
section
/-! DEFINITION. The configuration of the block (rule R6): a numeric domain with its sine, the phase wrap and the reset
parameters, each an argument of the model; the values this machine takes; its free values. -/

namespace Sys2Proof

/-- The parameters `NUM` and `SIN2PI` of rule R6: a numeric domain "supplied with its own `+ - * / < <= >= ==` and constants"
(rules R6, R11), and a total function on it. Every meaning takes one as its argument. -/
structure Arith (N : Type) where
  /-- The constants of rule R11; `fifth` is `ATTEN` (rule R6), `negOne` the `-1` of rule R12. -/
  (zero one two half fifth negOne : N)
  (add sub mul div : N → N → N)
  /-- `floor`, which only `PHASE_WRAP = MODULAR` uses (rule R74). -/
  floor : N → N
  /-- `<`, `<=`, `==`. The rules' `a > b` is `lt b a` and `a >= b` is `le b a`. -/
  (lt le eq : N → N → Bool)
  /-- `SIN2PI`. -/
  sin2pi : N → N

/-- The parameter `NUM_W` of rule R6 with the bit patterns of rule R49: how a finite `NUM` stands on the wires, in the `arg`
field and on every `NUM`-typed port. `NUM = EXACT` has none. Every value has a pattern that is read back as that value (log
entry 15); a value may have further patterns. -/
structure NumFormat (N : Type) where
  /-- `NUM_W`, a positive integer. -/
  width : Nat
  width_pos : 0 < width
  /-- The pattern the block drives for a value. -/
  bits : N → BitVec width
  /-- The value a pattern stands for. -/
  value : BitVec width → N
  value_bits : ∀ x, value (bits x) = x

/-- The parameter `PHASE_WRAP` (rule R6; U3). -/
inductive PhaseWrap where
  /-- One conditional subtraction of 1 (rule R74). -/
  | literal
  /-- `p - floor(p)` (rule R74, U3). -/
  | modular
deriving DecidableEq, Repr

/-- The nine open reset parameters `RESET_*` (rules R6, R37; U4). -/
structure ResetParams (N : Type) where
  vSr      : N
  vWave    : Wave
  vAttack  : N
  vDecay   : N
  vSustain : N
  vRelease : N
  lFreq    : N
  lSr      : N
  lWave    : Wave
deriving DecidableEq, Repr

/-- The legal values of the reset parameters (rule R6, column "legal values"; rule R117). -/
abbrev ResetParams.Legal {N : Type} [LE N] [Zero N] [One N] (p : ResetParams N) : Prop :=
  1 ≤ p.vSr ∧ 0 ≤ p.vAttack ∧ 0 ≤ p.vDecay ∧ 0 ≤ p.vSustain ∧ p.vSustain ≤ 1 ∧ 0 ≤ p.vRelease ∧ 1 ≤ p.lSr

/-- The parameters of rule R6 that are plain data. A state carries them (log entry 14). -/
structure Params (N : Type) where
  wrap  : PhaseWrap
  reset : ResetParams N
deriving DecidableEq, Repr

namespace Config

/-- `ATTEN`, exactly one fifth (rule R6; D3). -/
def atten : NUM := 1 / 5

/-- The reset parameters of `State.reset`. DESIGN CHOICE, log entry 2 (unsafe): the spec leaves all nine open; each is the
least legal magnitude (sample rates 1, every other number 0) and the first waveform of rule R24. -/
def resetParams : ResetParams NUM where
  vSr      := 1
  vWave    := .sine
  vAttack  := 0
  vDecay   := 0
  vSustain := 0
  vRelease := 0
  lFreq    := 0
  lSr      := 1
  lWave    := .sine

/-- The parameters of `State.reset`: `PHASE_WRAP = LITERAL`, the value the spec takes (rules R6, R74; D14; log entry 11),
and the reset parameters above. -/
def params : Params NUM where
  wrap  := .literal
  reset := resetParams

/-- The quotient by zero of a dividend: a FREE VALUE (log entry 3). No rule divides by zero in a reachable state
(rules R11, R83); in a state that no run reaches the instruction still completes with this value. -/
opaque divByZero : NUM → NUM

/-- The same free value in the domain of the reals. -/
noncomputable opaque divByZeroReal : ℝ → ℝ

/-- `SIN2PI` of the machine that runs, where the sine is irrational: an UNINTERPRETED function (log entry 4), as D2 says of a
model that cannot compute with reals. `sin2pi` in Machine/Operands.lean gives it the properties of rule R73. -/
opaque sin2pi : NUM → NUM

end Config

end Sys2Proof
end

