-- ==== Sys2Proof/Syntax.lean ====
section
/-! DEFINITION. The instruction set of SYNTH-VOICE: the fourteen commands of rule R51, one constructor per row of
spec/opcode_table.json, and what the table says of each row's fields. -/

namespace Sys2Proof

/-- The fourteen commands (rule R51). An operand is present exactly where the table's columns "uses `arg`" and
"uses `wave`" say yes; a field a command does not use is no part of the instruction (rule R53). -/
inductive Instr where
  | vSetSr (arg : NUM)
  | vSetWave (tag : Tag)
  | vSetAttack (arg : NUM)
  | vSetDecay (arg : NUM)
  | vSetSustain (arg : NUM)
  | vSetRelease (arg : NUM)
  | vSetFreq (arg : NUM)
  | vNoteOn (arg : NUM)
  | vNoteOff
  | vStep (arg : NUM)
  | lSetSr (arg : NUM)
  | lSetWave (tag : Tag)
  | lSetFreq (arg : NUM)
  | lStep
deriving DecidableEq, Repr

/-- Rule R51, column "uses `arg`". -/
def Instr.usesArg : Instr → Bool
  | .vSetSr _ => true
  | .vSetWave _ => false
  | .vSetAttack _ => true
  | .vSetDecay _ => true
  | .vSetSustain _ => true
  | .vSetRelease _ => true
  | .vSetFreq _ => true
  | .vNoteOn _ => true
  | .vNoteOff => false
  | .vStep _ => true
  | .lSetSr _ => true
  | .lSetWave _ => false
  | .lSetFreq _ => true
  | .lStep => false

/-- Rule R51, column "uses `wave`". -/
def Instr.usesWave : Instr → Bool
  | .vSetSr _ => false
  | .vSetWave _ => true
  | .vSetAttack _ => false
  | .vSetDecay _ => false
  | .vSetSustain _ => false
  | .vSetRelease _ => false
  | .vSetFreq _ => false
  | .vNoteOn _ => false
  | .vNoteOff => false
  | .vStep _ => false
  | .lSetSr _ => false
  | .lSetWave _ => true
  | .lSetFreq _ => false
  | .lStep => false

/-- Rule R51, column "returns a sample". -/
def Instr.returnsSample : Instr → Bool
  | .vSetSr _ => false
  | .vSetWave _ => false
  | .vSetAttack _ => false
  | .vSetDecay _ => false
  | .vSetSustain _ => false
  | .vSetRelease _ => false
  | .vSetFreq _ => false
  | .vNoteOn _ => false
  | .vNoteOff => false
  | .vStep _ => true
  | .lSetSr _ => false
  | .lSetWave _ => false
  | .lSetFreq _ => false
  | .lStep => true

/-- Rule R49: `op[7]` selects the unit; true for the Voice, false for the LFO. -/
def Instr.isVoice : Instr → Bool
  | .vSetSr _ => true
  | .vSetWave _ => true
  | .vSetAttack _ => true
  | .vSetDecay _ => true
  | .vSetSustain _ => true
  | .vSetRelease _ => true
  | .vSetFreq _ => true
  | .vNoteOn _ => true
  | .vNoteOff => true
  | .vStep _ => true
  | .lSetSr _ => false
  | .lSetWave _ => false
  | .lSetFreq _ => false
  | .lStep => false

end Sys2Proof
end

