-- ==== Sys2Proof/WellFormed.lean ====
section
/-! DEFINITION. Which instructions are well formed: the ones a good program may hold (U5). -/

namespace Sys2Proof

/-- A waveform operand is one of the three tags of rule R24; tag 3 is reserved (rules R54, R59, R86). -/
def Tag.legal (tag : Tag) : Bool := tag != 3

/-- U5: a well-formed program contains only the fourteen legal opcodes and never selects waveform tag 3. No `NUM`
operand is refused (rule R103). -/
def Instr.wf : Instr → Bool
  | .vSetSr _ => true
  | .vSetWave tag => Tag.legal tag
  | .vSetAttack _ => true
  | .vSetDecay _ => true
  | .vSetSustain _ => true
  | .vSetRelease _ => true
  | .vSetFreq _ => true
  | .vNoteOn _ => true
  | .vNoteOff => true
  | .vStep _ => true
  | .lSetSr _ => true
  | .lSetWave tag => Tag.legal tag
  | .lSetFreq _ => true
  | .lStep => true

end Sys2Proof
end

