-- ==== Sys2Proof/Decode.lean ====
section
/-! DEFINITION. Decoding a command word and encoding an instruction (rules R49, R51 to R56), and the layout of a command
word's bits. -/

namespace Sys2Proof

/-- What the decoder answers: an instruction, or a rejection that names the unassigned opcode (rule R54 case (a)). -/
inductive Decoded where
  | ok (i : Instr)
  | illegalOp (op : Op)
deriving DecidableEq, Repr

/-- Rule R51: `op` is matched in full, all eight bits; a field the command does not use is ignored (rule R53); the
fields it uses are taken whole (rule R52). The reserved waveform tag is not the decoder's business: the two
waveform commands check it themselves, after the opcode has matched (rules R54, R59, R86, R106). -/
def decode (w : CmdWord NUM) : Decoded :=
  match w.op with
  | 0x01#8 => .ok (.vSetSr w.arg)
  | 0x02#8 => .ok (.vSetWave w.wave)
  | 0x03#8 => .ok (.vSetAttack w.arg)
  | 0x04#8 => .ok (.vSetDecay w.arg)
  | 0x05#8 => .ok (.vSetSustain w.arg)
  | 0x06#8 => .ok (.vSetRelease w.arg)
  | 0x07#8 => .ok (.vSetFreq w.arg)
  | 0x08#8 => .ok (.vNoteOn w.arg)
  | 0x09#8 => .ok .vNoteOff
  | 0x0A#8 => .ok (.vStep w.arg)
  | 0x81#8 => .ok (.lSetSr w.arg)
  | 0x82#8 => .ok (.lSetWave w.wave)
  | 0x87#8 => .ok (.lSetFreq w.arg)
  | 0x8A#8 => .ok .lStep
  | op => .illegalOp op

/-- The encoder, from the same table (rule R51); the assembler writes 0 in unused fields (rule R56). -/
def encode : Instr → CmdWord NUM
  | .vSetSr a => ⟨0x01, 0, a⟩
  | .vSetWave t => ⟨0x02, t, 0⟩
  | .vSetAttack a => ⟨0x03, 0, a⟩
  | .vSetDecay a => ⟨0x04, 0, a⟩
  | .vSetSustain a => ⟨0x05, 0, a⟩
  | .vSetRelease a => ⟨0x06, 0, a⟩
  | .vSetFreq a => ⟨0x07, 0, a⟩
  | .vNoteOn a => ⟨0x08, 0, a⟩
  | .vNoteOff => ⟨0x09, 0, 0⟩
  | .vStep a => ⟨0x0A, 0, a⟩
  | .lSetSr a => ⟨0x81, 0, a⟩
  | .lSetWave t => ⟨0x82, t, 0⟩
  | .lSetFreq a => ⟨0x87, 0, a⟩
  | .lStep => ⟨0x8A, 0, 0⟩

/-- The low ten bits of a command word, `cmd[9:0] = wave*256 + op` (rules R49, R56). -/
def CmdWord.lo10 {N : Type} (w : CmdWord N) : BitVec 10 := w.wave ++ w.op

/-- The command word with the given low ten bits and operand (rule R49). -/
def CmdWord.ofLo10 {N : Type} (lo : BitVec 10) (arg : N) : CmdWord N :=
  ⟨lo.extractLsb' 0 8, lo.extractLsb' 8 2, arg⟩

/-- The command word on the wires under a finite `NUM` (rule R49): `{arg, wave, op}`, `10 + NUM_W` bits, the `arg` field carrying
the format's bit pattern of the operand. -/
def CmdWord.pattern {N : Type} (F : NumFormat N) (w : CmdWord N) : BitVec (F.width + 10) := F.bits w.arg ++ w.lo10

/-- The command word whose bits on the wires are `cmd` (rules R49, R52): `cmd[7:0]`, `cmd[9:8]`, `cmd[10+NUM_W-1:10]`, each taken
whole. -/
def CmdWord.ofPattern {N : Type} (F : NumFormat N) (cmd : BitVec (F.width + 10)) : CmdWord N :=
  ⟨cmd.extractLsb' 0 8, cmd.extractLsb' 8 2, F.value (cmd.extractLsb' 10 F.width)⟩

/-- Rule R49's layout of a command word whose `arg` field holds the bits of the natural number `field`: `op` in bits 7 to
0, `wave` in bits 9 to 8, `arg` from bit 10 up. Under a finite `NUM` the field holds the operand's pattern (`CmdWord.pattern`);
under EXACT the operand has none, and the field is the argument. -/
def CmdWord.toBits {N : Type} (w : CmdWord N) (field : Nat) : Nat :=
  w.op.toNat + 256 * w.wave.toNat + 1024 * field

/-- The command word, of the machine that runs, whose bits are `w` (numbered as rule R49 numbers them), of `nbits` bits. Under
`NUM = EXACT` the `arg` field has no bit pattern (rule R49; for a finite `NUM` see `CmdWord.ofPattern`); DESIGN CHOICE, log entry 5: its bits are read as the unsigned integer of
rule R8, so that bits of zeros are the operand 0. -/
def CmdWord.ofBits (nbits w : Nat) : CmdWord NUM :=
  let b := w % 2 ^ nbits
  ⟨BitVec.ofNat 8 b, BitVec.ofNat 2 (b / 256), ((b / 1024 : Nat) : NUM)⟩

/-- The instruction of a decoding, if it is one. -/
def Decoded.instr? : Decoded → Option Instr
  | .ok i => some i
  | .illegalOp _ => none

/-- The instruction the decoder reads from the bits `w` of an opcode-table row. -/
def decodeTableWord (nbits w : Nat) : Option Instr :=
  (decode (CmdWord.ofBits nbits w)).instr?

end Sys2Proof
end

