-- ==== Sys2Proof/Machine/State.lean ====
section
/-! DEFINITION. The state of the block: the sixteen registers of rule R15 over any numeric domain; the machine's state, which
adds the model's own fields (the parameters, the response port, the events the host presents); the reasons a step can stop;
reset. -/

namespace Sys2Proof.Machine

/-- The Voice unit's eleven registers (rules R15 to R20, R23 to R28). -/
structure Voice (N : Type) where
  /-- `V.phase`, the phase accumulator (rule R16). -/
  phase   : N
  /-- `V.level`, the envelope level (rule R17). -/
  level   : N
  /-- `V.rstep`, the release step (rule R18). -/
  rstep   : N
  /-- `V.freq`, the target frequency in Hz (rule R19). -/
  freq    : N
  /-- `V.stage`, the envelope stage (rule R20). -/
  stage   : Stage
  /-- `V.sr`, the sample rate in Hz (rule R23). -/
  sr      : N
  /-- `V.wave`, the waveform (rule R24). -/
  wave    : Wave
  /-- `V.attack`, the attack duration in seconds (rule R25). -/
  attack  : N
  /-- `V.decay`, the decay duration in seconds (rule R26). -/
  decay   : N
  /-- `V.sustain`, the sustain target level (rule R27). -/
  sustain : N
  /-- `V.release`, the release duration in seconds (rule R28). -/
  release : N
deriving DecidableEq, Repr

/-- The LFO unit's four registers (rule R29). -/
structure Lfo (N : Type) where
  /-- `L.phase`. -/
  phase : N
  /-- `L.freq`, in Hz, unclamped. -/
  freq  : N
  /-- `L.sr`, the LFO's own sample rate in Hz. -/
  sr    : N
  /-- `L.wave`. -/
  wave  : Wave
deriving DecidableEq, Repr

/-- The sixteen registers, the whole architectural state (rules R15, R34). -/
structure Regs (N : Type) where
  /-- The Voice unit. -/
  v       : Voice N
  /-- The LFO unit. -/
  l       : Lfo N
  /-- `S.illegal`, the sticky fault flag (rule R21). -/
  illegal : Bool
deriving DecidableEq, Repr

/-- What the host does at the block's pins between two command boundaries (rules R48, R115, R117). -/
inductive PortEvent (N : Type) where
  /-- A command word is presented and accepted. -/
  | command (w : CmdWord N)
  /-- `cmd_valid == 0`: nothing is presented (rule R115). -/
  | idle
  /-- `rst == 1` at a clock edge (rule R117). -/
  | rst
deriving DecidableEq, Repr

/-- The machine's state. `cfg`, `rsp` and `input` are the model's own (log entries 14, 6, 7): no register of the block. -/
structure State extends Regs NUM where
  /-- The parameters of rule R6 that are plain data. No event changes them. -/
  cfg   : Params NUM
  /-- The response port as the last completed event left it: `some x` where `rsp_valid` was 1 with `x` on `rsp_sample`,
  `none` where `rsp_valid` stayed 0 (rules R48, R50). -/
  rsp   : Option NUM
  /-- What the host will do next at the pins, in order (rules R31, R44). -/
  input : List (PortEvent NUM)
deriving DecidableEq, Repr

/-- Reasons to stop with a fault: NONE. No command of the block stops it (rules R103, R104, R107): an illegal command
sets `S.illegal` and completes. -/
inductive Fault where
deriving DecidableEq, Repr

/-- Reasons to refuse an instruction. -/
inductive Refusal where
  /-- Raised by exec's arm of an instruction that has no meaning yet. No arm is left that raises it. Safe. -/
  | notModelled (mnemonic : String)
deriving DecidableEq, Repr

/-- A Voice unit right after reset (rule R37); `zero` is the domain's 0. -/
def Voice.reset {N : Type} (zero : N) (p : ResetParams N) : Voice N where
  phase   := zero
  level   := zero
  rstep   := zero
  freq    := zero
  stage   := .off
  sr      := p.vSr
  wave    := p.vWave
  attack  := p.vAttack
  decay   := p.vDecay
  sustain := p.vSustain
  release := p.vRelease

/-- The LFO unit right after reset (rule R37). -/
def Lfo.reset {N : Type} (zero : N) (p : ResetParams N) : Lfo N where
  phase := zero
  freq  := p.lFreq
  sr    := p.lSr
  wave  := p.lWave

/-- The sixteen registers right after reset (rules R37, R117). -/
def Regs.reset {N : Type} (zero : N) (p : ResetParams N) : Regs N where
  v       := Voice.reset zero p
  l       := Lfo.reset zero p
  illegal := false

/-- The state after reset under the parameters `c` (rules R37, R117), with no input pending. -/
def State.resetWith (c : Params NUM) : State where
  toRegs := Regs.reset 0 c.reset
  cfg    := c
  rsp    := none
  input  := []

/-- The machine right after reset (rule R37; the nine open parameters: log entry 2). -/
def State.reset : State := State.resetWith Config.params

end Sys2Proof.Machine
end

