-- ==== Sys2Proof/Machine/Ops.lean ====
section
/-! DEFINITION. The shared operations: how a command completes (with no response, with a response, or by raising
IllegalCommand), division, and the phase step. -/

namespace Sys2Proof.Machine

/-- What a completed event leaves: the registers, and the response port (rules R48, R50). -/
structure Reply (N : Type) where
  regs : Regs N
  rsp  : Option N
deriving DecidableEq, Repr

/-- A command that returns no sample completes: `rsp_valid` stays 0 (rules R48, R50). -/
def Regs.complete {N : Type} (r : Regs N) : Reply N := ⟨r, none⟩

/-- A step command completes with its sample on the response port (rules R48, R50). -/
def Regs.respond {N : Type} (r : Regs N) (x : N) : Reply N := ⟨r, some x⟩

/-- `raise IllegalCommand(op)`, the one exception (rule R104): `S.illegal <- 1`, no other register is written, no sample
is returned, the command completes. There is no trap entry and nothing to return from (rules R107, R108). -/
def Regs.raiseIllegal {N : Type} (r : Regs N) : Reply N := Regs.complete { r with illegal := true }

/-- The registers with the Voice unit written. -/
def Regs.setV {N : Type} (r : Regs N) (v : Voice N) : Regs N := { r with v := v }

/-- The registers with the LFO unit written. -/
def Regs.setL {N : Type} (r : Regs N) (l : Lfo N) : Regs N := { r with l := l }

/-- The machine's state after an event: its registers and its response port are the reply's, all else is kept. -/
def State.answer (s : State) (y : Reply NUM) : Host.Outcome State Fault Refusal :=
  .next { s with toRegs := y.regs, rsp := y.rsp }

/-- Division in `NUM` (rules R11, R83). A zero divisor occurs in no reachable state; there the quotient is a free value
(log entry 3). -/
def divide (x y : NUM) : NUM := if y = 0 then Config.divByZero x else x / y

/-- The phase step (rule R74; for the LFO rule R88): add the increment and wrap. -/
def advance {N : Type} (A : Arith N) (wrap : PhaseWrap) (phase inc : N) : N :=
  let p := A.add phase inc
  match wrap with
  | .literal => if A.le A.one p then A.sub p A.one else p
  | .modular => A.sub p (A.floor p)

end Sys2Proof.Machine
end

