-- ==== Sys2Proof/Machine/Operands.lean ====
section
/-! DEFINITION. The numeric domains of the model (the exact rationals it runs on, the reals), the sine of the first, and the
helper functions of rule R12: the clamps, the waveform tags, the waveform functions. -/

namespace Sys2Proof

/-- The waveform a tag names (rule R24); the reserved tag 3 names none. -/
def Wave.ofTag (tag : Tag) : Option Wave :=
  match tag with
  | 0#2 => some .sine
  | 1#2 => some .square
  | 2#2 => some .saw
  | _ => none

/-- The tag of a waveform (rule R24). -/
def Wave.tag : Wave → Tag
  | .sine => 0
  | .square => 1
  | .saw => 2

namespace Machine

/-- `SIN2PI` on the rationals (rule R6; D2). The phase is reduced by the sine's period 1. At the eight points where the sine
is rational it is that rational: the points of rule R73 and vector T20. Elsewhere the sine is irrational, and the value
is an uninterpreted one in `[-1,1]` (log entry 4), so that every property of rule R73 holds. -/
def sin2pi (p : NUM) : NUM :=
  let q := p - (p.floor : NUM)
  if q = 0 ∨ q = 1 / 2 then 0
  else if q = 1 / 4 then 1
  else if q = 3 / 4 then -1
  else if q = 1 / 12 ∨ q = 5 / 12 then 1 / 2
  else if q = 7 / 12 ∨ q = 11 / 12 then -1 / 2
  else max (-1) (min 1 (Config.sin2pi q))

end Machine

/-- The exact rationals (rules R6, R11): the domain of the machine that runs (log entry 1). -/
def Arith.rat : Arith NUM where
  zero   := 0
  one    := 1
  two    := 2
  half   := 1 / 2
  fifth  := Config.atten
  negOne := -1
  add x y := x + y
  sub x y := x - y
  mul x y := x * y
  div    := Machine.divide
  floor x := (x.floor : NUM)
  lt x y := decide (x < y)
  le x y := decide (x ≤ y)
  eq x y := decide (x = y)
  sin2pi := Machine.sin2pi

open Classical in
/-- `NUM = EXACT` with every real number and the exact real sine (rules R6, R11; D1, D2): the reference domain. Its order has
no algorithm, so the machine over it is for claims, not for running. A quotient by zero is a free value (log entry 3). -/
noncomputable def Arith.real : Arith ℝ where
  zero   := 0
  one    := 1
  two    := 2
  half   := 1 / 2
  fifth  := 1 / 5
  negOne := -1
  add x y := x + y
  sub x y := x - y
  mul x y := x * y
  div x y := if y = 0 then Config.divByZeroReal x else x / y
  floor x := (⌊x⌋ : ℝ)
  lt x y := decide (x < y)
  le x y := decide (x ≤ y)
  eq x y := decide (x = y)
  sin2pi p := Real.sin (2 * Real.pi * p)

namespace Machine

/-- `clamp_lo(v, lo)` (rule R12). -/
def clampLo {N : Type} (A : Arith N) (v lo : N) : N := if A.lt v lo then lo else v

/-- `clamp01(v)` (rule R12). -/
def clamp01 {N : Type} (A : Arith N) (v : N) : N :=
  if A.lt v A.zero then A.zero else if A.lt A.one v then A.one else v

/-- `wave(w, p)` (rule R12), applied as written to every phase, in `[0,1)` or not. -/
def waveValue {N : Type} (A : Arith N) (w : Wave) (p : N) : N :=
  match w with
  | .sine => A.sin2pi p
  | .square => if A.lt p A.half then A.one else A.negOne
  | .saw => A.sub (A.mul A.two p) A.one

end Machine

end Sys2Proof
end

