-- ==== Sys2Proof/Machine/LfoUnit.lean ====
section
/-! DEFINITION. The four LFO commands (rules R85 to R90). -/

namespace Sys2Proof.Machine

/-- Rule R85. -/
def Lfo.setSr {N : Type} (A : Arith N) (l : Lfo N) (arg : N) : Lfo N := { l with sr := clampLo A arg A.one }

/-- Rule R86, the legal tags. -/
def Lfo.setWave {N : Type} (l : Lfo N) (w : Wave) : Lfo N := { l with wave := w }

/-- Rule R87. -/
def Lfo.setFreq {N : Type} (l : Lfo N) (arg : N) : Lfo N := { l with freq := arg }

/-- The LFO after one sample (rule R88). -/
def Lfo.tick {N : Type} (A : Arith N) (wrap : PhaseWrap) (l : Lfo N) : Lfo N :=
  { l with phase := advance A wrap l.phase (A.div l.freq l.sr) }

/-- The sample `L_STEP` returns: the waveform at the phase before the advance, neither attenuated nor scaled (rule R88). -/
def Lfo.output {N : Type} (A : Arith N) (l : Lfo N) : N := waveValue A l.wave l.phase

/-- `L_SET_SR` (rule R85). -/
def Regs.lSetSr {N : Type} (A : Arith N) (arg : N) (r : Regs N) : Reply N := (r.setL (r.l.setSr A arg)).complete

/-- `L_SET_WAVE` (rule R86): the reserved tag raises IllegalCommand and leaves `L.wave`. -/
def Regs.lSetWave {N : Type} (tag : Tag) (r : Regs N) : Reply N :=
  match Wave.ofTag tag with
  | none => r.raiseIllegal
  | some w => (r.setL (r.l.setWave w)).complete

/-- `L_SET_FREQ` (rule R87). -/
def Regs.lSetFreq {N : Type} (arg : N) (r : Regs N) : Reply N := (r.setL (r.l.setFreq arg)).complete

/-- `L_STEP` (rule R88). -/
def Regs.lStep {N : Type} (A : Arith N) (wrap : PhaseWrap) (r : Regs N) : Reply N :=
  (r.setL (r.l.tick A wrap)).respond (r.l.output A)

/-- `L_SET_SR` (rule R85). -/
def execLSetSr (arg : NUM) (s : State) : Host.Outcome State Fault Refusal := s.answer (s.toRegs.lSetSr Arith.rat arg)

/-- `L_SET_WAVE` (rule R86). -/
def execLSetWave (tag : Tag) (s : State) : Host.Outcome State Fault Refusal := s.answer (s.toRegs.lSetWave tag)

/-- `L_SET_FREQ` (rule R87). -/
def execLSetFreq (arg : NUM) (s : State) : Host.Outcome State Fault Refusal := s.answer (s.toRegs.lSetFreq arg)

/-- `L_STEP` (rule R88). -/
def execLStep (s : State) : Host.Outcome State Fault Refusal := s.answer (s.toRegs.lStep Arith.rat s.cfg.wrap)

end Sys2Proof.Machine
end

