-- ==== Sys2Proof/Machine/Flags.lean ====
section
/-! DEFINITION. The block's control state `V.stage`: its encoding (rule R20) and the envelope step, which moves it (rules
R76 to R81). -/

namespace Sys2Proof

/-- The three bits that hold a stage (rule R20). -/
def Stage.code : Stage → BitVec 3
  | .attack => 0
  | .decay => 1
  | .sustain => 2
  | .release => 3
  | .off => 4

namespace Machine

/-- Rule R77, stage Attack. -/
def envAttack {N : Type} (A : Arith N) (v : Voice N) : Voice N :=
  if A.eq v.attack A.zero then { v with level := A.one, stage := .decay }
  else
    let level := A.add v.level (A.div A.one (A.mul v.attack v.sr))
    if A.le A.one level then { v with level := A.one, stage := .decay } else { v with level := level }

/-- Rule R78, stage Decay. -/
def envDecay {N : Type} (A : Arith N) (v : Voice N) : Voice N :=
  if A.eq v.decay A.zero then { v with level := v.sustain, stage := .sustain }
  else
    let level := A.sub v.level (A.div (A.sub A.one v.sustain) (A.mul v.decay v.sr))
    if A.le level v.sustain then { v with level := v.sustain, stage := .sustain } else { v with level := level }

/-- Rule R79, stage Sustain. -/
def envSustain {N : Type} (v : Voice N) : Voice N := { v with level := v.sustain }

/-- Rule R80, stage Release. -/
def envRelease {N : Type} (A : Arith N) (v : Voice N) : Voice N :=
  let level := A.sub v.level v.rstep
  if A.le level A.zero then { v with level := A.zero, stage := .off } else { v with level := level }

/-- Rule R81, stage Off. -/
def envOff {N : Type} (A : Arith N) (v : Voice N) : Voice N := { v with level := A.zero }

/-- Rule R76: the stage is read once and exactly one of the five rules runs. -/
def envelope {N : Type} (A : Arith N) (v : Voice N) : Voice N :=
  match v.stage with
  | .attack => envAttack A v
  | .decay => envDecay A v
  | .sustain => envSustain v
  | .release => envRelease A v
  | .off => envOff A v

end Machine

end Sys2Proof
end

