-- ==== Sys2Proof/Machine/VoiceConfig.lean ====
section
/-! DEFINITION. The seven Voice configuration commands (rules R58 to R65): each writes one register of the Voice. Each is a
function on the registers over any numeric domain, and the machine's meaning runs it on its own. -/

namespace Sys2Proof.Machine

/-- Rule R58. -/
def Voice.setSr {N : Type} (A : Arith N) (v : Voice N) (arg : N) : Voice N := { v with sr := clampLo A arg A.one }

/-- Rule R59, the legal tags. -/
def Voice.setWave {N : Type} (v : Voice N) (w : Wave) : Voice N := { v with wave := w }

/-- Rule R60. -/
def Voice.setAttack {N : Type} (A : Arith N) (v : Voice N) (arg : N) : Voice N := { v with attack := clampLo A arg A.zero }

/-- Rule R61. -/
def Voice.setDecay {N : Type} (A : Arith N) (v : Voice N) (arg : N) : Voice N := { v with decay := clampLo A arg A.zero }

/-- Rule R62. -/
def Voice.setSustain {N : Type} (A : Arith N) (v : Voice N) (arg : N) : Voice N := { v with sustain := clamp01 A arg }

/-- Rule R63. -/
def Voice.setRelease {N : Type} (A : Arith N) (v : Voice N) (arg : N) : Voice N := { v with release := clampLo A arg A.zero }

/-- Rule R64. -/
def Voice.setFreq {N : Type} (v : Voice N) (arg : N) : Voice N := { v with freq := arg }

/-- `V_SET_SR` (rule R58). -/
def Regs.vSetSr {N : Type} (A : Arith N) (arg : N) (r : Regs N) : Reply N := (r.setV (r.v.setSr A arg)).complete

/-- `V_SET_WAVE` (rule R59): the reserved tag raises IllegalCommand and leaves `V.wave`. -/
def Regs.vSetWave {N : Type} (tag : Tag) (r : Regs N) : Reply N :=
  match Wave.ofTag tag with
  | none => r.raiseIllegal
  | some w => (r.setV (r.v.setWave w)).complete

/-- `V_SET_ATTACK` (rule R60). -/
def Regs.vSetAttack {N : Type} (A : Arith N) (arg : N) (r : Regs N) : Reply N := (r.setV (r.v.setAttack A arg)).complete

/-- `V_SET_DECAY` (rule R61). -/
def Regs.vSetDecay {N : Type} (A : Arith N) (arg : N) (r : Regs N) : Reply N := (r.setV (r.v.setDecay A arg)).complete

/-- `V_SET_SUSTAIN` (rule R62). -/
def Regs.vSetSustain {N : Type} (A : Arith N) (arg : N) (r : Regs N) : Reply N := (r.setV (r.v.setSustain A arg)).complete

/-- `V_SET_RELEASE` (rule R63). -/
def Regs.vSetRelease {N : Type} (A : Arith N) (arg : N) (r : Regs N) : Reply N := (r.setV (r.v.setRelease A arg)).complete

/-- `V_SET_FREQ` (rule R64). -/
def Regs.vSetFreq {N : Type} (arg : N) (r : Regs N) : Reply N := (r.setV (r.v.setFreq arg)).complete

/-- `V_SET_SR` (rule R58). -/
def execVSetSr (arg : NUM) (s : State) : Host.Outcome State Fault Refusal := s.answer (s.toRegs.vSetSr Arith.rat arg)

/-- `V_SET_WAVE` (rule R59). -/
def execVSetWave (tag : Tag) (s : State) : Host.Outcome State Fault Refusal := s.answer (s.toRegs.vSetWave tag)

/-- `V_SET_ATTACK` (rule R60). -/
def execVSetAttack (arg : NUM) (s : State) : Host.Outcome State Fault Refusal := s.answer (s.toRegs.vSetAttack Arith.rat arg)

/-- `V_SET_DECAY` (rule R61). -/
def execVSetDecay (arg : NUM) (s : State) : Host.Outcome State Fault Refusal := s.answer (s.toRegs.vSetDecay Arith.rat arg)

/-- `V_SET_SUSTAIN` (rule R62). -/
def execVSetSustain (arg : NUM) (s : State) : Host.Outcome State Fault Refusal := s.answer (s.toRegs.vSetSustain Arith.rat arg)

/-- `V_SET_RELEASE` (rule R63). -/
def execVSetRelease (arg : NUM) (s : State) : Host.Outcome State Fault Refusal := s.answer (s.toRegs.vSetRelease Arith.rat arg)

/-- `V_SET_FREQ` (rule R64). -/
def execVSetFreq (arg : NUM) (s : State) : Host.Outcome State Fault Refusal := s.answer (s.toRegs.vSetFreq arg)

end Sys2Proof.Machine
end

