-- ==== Sys2Proof/Machine/VoiceNote.lean ====
section
/-! DEFINITION. The two note commands (rules R66 to R71). -/

namespace Sys2Proof.Machine

/-- Rule R66: the level, the phase and the release step are kept. -/
def Voice.noteOn {N : Type} (v : Voice N) (arg : N) : Voice N := { v with freq := arg, stage := .attack }

/-- Rule R67, with its branches R68 (release 0) and R69. -/
def Voice.noteOff {N : Type} (A : Arith N) (v : Voice N) : Voice N :=
  if A.eq v.release A.zero then { v with level := A.zero, stage := .off }
  else { v with rstep := A.div v.level (A.mul v.release v.sr), stage := .release }

/-- `V_NOTE_ON` (rule R66). -/
def Regs.vNoteOn {N : Type} (arg : N) (r : Regs N) : Reply N := (r.setV (r.v.noteOn arg)).complete

/-- `V_NOTE_OFF` (rule R67). -/
def Regs.vNoteOff {N : Type} (A : Arith N) (r : Regs N) : Reply N := (r.setV (r.v.noteOff A)).complete

/-- `V_NOTE_ON` (rule R66). -/
def execVNoteOn (arg : NUM) (s : State) : Host.Outcome State Fault Refusal := s.answer (s.toRegs.vNoteOn arg)

/-- `V_NOTE_OFF` (rule R67). -/
def execVNoteOff (s : State) : Host.Outcome State Fault Refusal := s.answer (s.toRegs.vNoteOff Arith.rat)

end Sys2Proof.Machine
end

