-- ==== Sys2Proof/Machine/VoiceStep.lean ====
section
/-! DEFINITION. The Voice sample step `V_STEP` (rules R72 to R82). -/

namespace Sys2Proof.Machine

/-- Steps 2 and 3 of rule R72: the Voice after one sample at the modulated frequency `fm`. -/
def Voice.tick {N : Type} (A : Arith N) (wrap : PhaseWrap) (fm : N) (v : Voice N) : Voice N :=
  envelope A { v with phase := advance A wrap v.phase (A.div fm v.sr) }

/-- Steps 1 and 4 of rule R72: the waveform at the phase before the advance (rule R73), times the level after the
envelope step, times 1/5, two multiplications in that order (rule R82). -/
def Voice.output {N : Type} (A : Arith N) (wrap : PhaseWrap) (fm : N) (v : Voice N) : N :=
  A.mul (A.mul (waveValue A v.wave v.phase) (v.tick A wrap fm).level) A.fifth

/-- `V_STEP` (rule R72). -/
def Regs.vStep {N : Type} (A : Arith N) (wrap : PhaseWrap) (arg : N) (r : Regs N) : Reply N :=
  (r.setV (r.v.tick A wrap arg)).respond (r.v.output A wrap arg)

/-- `V_STEP` (rule R72). -/
def execVStep (arg : NUM) (s : State) : Host.Outcome State Fault Refusal :=
  s.answer (s.toRegs.vStep Arith.rat s.cfg.wrap arg)

end Sys2Proof.Machine
end

