-- ==== Sys2Proof/Machine/Dispatch.lean ====
section
/-! DEFINITION. The dispatch of an instruction to its meaning, one arm per command of rule R51. -/

namespace Sys2Proof.Machine

def exec (i : Instr) (s : State) : Host.Outcome State Fault Refusal :=
  match i with
  | .vSetSr arg => Sys2Proof.Machine.execVSetSr arg s
  | .vSetWave tag => Sys2Proof.Machine.execVSetWave tag s
  | .vSetAttack arg => Sys2Proof.Machine.execVSetAttack arg s
  | .vSetDecay arg => Sys2Proof.Machine.execVSetDecay arg s
  | .vSetSustain arg => Sys2Proof.Machine.execVSetSustain arg s
  | .vSetRelease arg => Sys2Proof.Machine.execVSetRelease arg s
  | .vSetFreq arg => Sys2Proof.Machine.execVSetFreq arg s
  | .vNoteOn arg => Sys2Proof.Machine.execVNoteOn arg s
  | .vNoteOff => Sys2Proof.Machine.execVNoteOff s
  | .vStep arg => Sys2Proof.Machine.execVStep arg s
  | .lSetSr arg => Sys2Proof.Machine.execLSetSr arg s
  | .lSetWave tag => Sys2Proof.Machine.execLSetWave tag s
  | .lSetFreq arg => Sys2Proof.Machine.execLSetFreq arg s
  | .lStep => Sys2Proof.Machine.execLStep s

end Sys2Proof.Machine
end

