-- ==== Sys2Proof/Machine/Port.lean ====
section
/-! DEFINITION. What one event at the pins does (rules R48, R54, R104, R115, R117): an accepted command runs to
completion, an idle port holds everything, reset gives the reset state. -/

namespace Sys2Proof.Machine

/-- An accepted command word (rules R48, R54): a legal opcode runs its command, any other raises IllegalCommand. -/
def accept (w : CmdWord NUM) (s : State) : Host.Outcome State Fault Refusal :=
  match decode w with
  | .ok i => exec i s
  | .illegalOp _ => s.answer s.toRegs.raiseIllegal

/-- No command is presented (rule R115): every register is held; a response lasts one clock cycle (rule R48). -/
def idle (s : State) : Host.Outcome State Fault Refusal := s.answer s.toRegs.complete

/-- Reset (rules R116 to R118): every register at its reset value under the state's parameters, the same after every reset
(U4), whatever was there before; what the host does afterwards is still to come. -/
def applyReset (s : State) : Host.Outcome State Fault Refusal := s.answer (Regs.reset 0 s.cfg.reset).complete

/-- One event at the pins. -/
def onEvent (e : PortEvent NUM) (s : State) : Host.Outcome State Fault Refusal :=
  match e with
  | .command w => accept w s
  | .idle => idle s
  | .rst => applyReset s

end Sys2Proof.Machine
end

