-- ==== Sys2Proof/Machine/Step.lean ====
section
/-! DEFINITION. One step of the machine: the next event the host presents (rules R44, R48), run to completion. -/

namespace Sys2Proof.Machine

/-- The block has no program counter and fetches nothing (rule R31): a step takes the next event from the host's
sequence. With no event left the port is idle (rule R115). -/
def step (s : State) : Host.Outcome State Fault Refusal :=
  match s.input with
  | [] => idle s
  | e :: rest => onEvent e { s with input := rest }

/-- The state in which the host presents, next, the command whose bits are `w`; what it had pending comes after. -/
def State.withFetchWord (s : State) (nbits w : Nat) : State :=
  { s with input := .command (CmdWord.ofBits nbits w) :: s.input }

end Sys2Proof.Machine
end

