-- ==== Sys2Proof/Machine/AnyNum.lean ====
section
/-! DEFINITION. The block over ANY numeric domain (rules R6, R11, R49): the events at its pins, with `NUM`, `SIN2PI`, `PHASE_WRAP`
and the reset parameters as arguments. At `Arith.real` it is the reference machine of `NUM = EXACT`, whose operands and
registers are real numbers and whose sine is the exact one. The machine that runs (`step`) is this one at `Arith.rat`. -/

namespace Sys2Proof.Machine

/-- An accepted command word (rules R49, R51 to R54): the opcode is matched in full, an unused field is ignored, any other
opcode raises IllegalCommand. -/
def Regs.accept {N : Type} (A : Arith N) (wrap : PhaseWrap) (w : CmdWord N) (r : Regs N) : Reply N :=
  match w.op with
  | 0x01#8 => r.vSetSr A w.arg
  | 0x02#8 => r.vSetWave w.wave
  | 0x03#8 => r.vSetAttack A w.arg
  | 0x04#8 => r.vSetDecay A w.arg
  | 0x05#8 => r.vSetSustain A w.arg
  | 0x06#8 => r.vSetRelease A w.arg
  | 0x07#8 => r.vSetFreq w.arg
  | 0x08#8 => r.vNoteOn w.arg
  | 0x09#8 => r.vNoteOff A
  | 0x0A#8 => r.vStep A wrap w.arg
  | 0x81#8 => r.lSetSr A w.arg
  | 0x82#8 => r.lSetWave w.wave
  | 0x87#8 => r.lSetFreq w.arg
  | 0x8A#8 => r.lStep A wrap
  | _ => r.raiseIllegal

/-- One event at the pins (rules R48, R115, R117). -/
def Regs.event {N : Type} (A : Arith N) (c : Params N) (e : PortEvent N) (r : Regs N) : Reply N :=
  match e with
  | .command w => r.accept A c.wrap w
  | .idle => r.complete
  | .rst => (Regs.reset A.zero c.reset).complete

/-- Events one after the other (rule R44): the registers at the end, and the samples in the order they were returned. -/
def Regs.events {N : Type} (A : Arith N) (c : Params N) : List (PortEvent N) → Regs N → Regs N × List N
  | [], r => (r, [])
  | e :: es, r =>
    let first := r.event A c e
    let others := Regs.events A c es first.regs
    (others.1, first.rsp.toList ++ others.2)

/-- The modulated frequency the host forms from an LFO sample (rules R57, R92): `offset <- m * depth`, `fm <- pitch + offset`,
in `NUM`. -/
def modulated {N : Type} (A : Arith N) (pitch depth m : N) : N := A.add pitch (A.mul m depth)

/-- `TICK pitch, depth` (rule R57): `L_STEP` returning `m`, then `V_STEP (pitch + m*depth)`. The answer is the LFO's sample and
what the `V_STEP` leaves. -/
def Regs.tick {N : Type} (A : Arith N) (wrap : PhaseWrap) (pitch depth : N) (r : Regs N) : N × Reply N :=
  let m := r.l.output A
  (m, (r.lStep A wrap).regs.vStep A wrap (modulated A pitch depth m))

/-! The same data over another domain, number by number. -/

/-- A Voice, each number mapped. -/
def Voice.map {N M : Type} (f : N → M) (v : Voice N) : Voice M :=
  ⟨f v.phase, f v.level, f v.rstep, f v.freq, v.stage, f v.sr, v.wave, f v.attack, f v.decay, f v.sustain, f v.release⟩

/-- An LFO, each number mapped. -/
def Lfo.map {N M : Type} (f : N → M) (l : Lfo N) : Lfo M := ⟨f l.phase, f l.freq, f l.sr, l.wave⟩

/-- The registers, each number mapped. -/
def Regs.map {N M : Type} (f : N → M) (r : Regs N) : Regs M := ⟨r.v.map f, r.l.map f, r.illegal⟩

/-- An event, the operand mapped. -/
def PortEvent.map {N M : Type} (f : N → M) : PortEvent N → PortEvent M
  | .command w => .command ⟨w.op, w.wave, f w.arg⟩
  | .idle => .idle
  | .rst => .rst

end Sys2Proof.Machine

namespace Sys2Proof

/-- The parameters, each number mapped. -/
def Params.map {N M : Type} (f : N → M) (c : Params N) : Params M :=
  ⟨c.wrap, f c.reset.vSr, c.reset.vWave, f c.reset.vAttack, f c.reset.vDecay, f c.reset.vSustain, f c.reset.vRelease,
    f c.reset.lFreq, f c.reset.lSr, c.reset.lWave⟩

end Sys2Proof
end

