-- ==== Sys2Proof/Machine/Status.lean ====
section
/-! DEFINITION. The read-only status ports (rule R33): what the host sees of the sixteen registers, with the encodings of
rules R20 and R24. -/

namespace Sys2Proof.Machine

/-- The sixteen status ports, named as rule R33 names them. -/
structure StatusPorts (N : Type) where
  st_v_phase   : N
  st_v_level   : N
  st_v_rstep   : N
  st_v_freq    : N
  st_v_stage   : BitVec 3
  st_v_sr      : N
  st_v_wave    : BitVec 2
  st_v_attack  : N
  st_v_decay   : N
  st_v_sustain : N
  st_v_release : N
  st_l_phase   : N
  st_l_freq    : N
  st_l_sr      : N
  st_l_wave    : BitVec 2
  st_illegal   : BitVec 1
deriving DecidableEq, Repr

/-- Reading the status ports: a function of the state, so with no side effect (rules R33, R41). -/
def Regs.status {N : Type} (s : Regs N) : StatusPorts N where
  st_v_phase   := s.v.phase
  st_v_level   := s.v.level
  st_v_rstep   := s.v.rstep
  st_v_freq    := s.v.freq
  st_v_stage   := s.v.stage.code
  st_v_sr      := s.v.sr
  st_v_wave    := s.v.wave.tag
  st_v_attack  := s.v.attack
  st_v_decay   := s.v.decay
  st_v_sustain := s.v.sustain
  st_v_release := s.v.release
  st_l_phase   := s.l.phase
  st_l_freq    := s.l.freq
  st_l_sr      := s.l.sr
  st_l_wave    := s.l.wave.tag
  st_illegal   := BitVec.ofBool s.illegal

/-- The same ports, each `NUM`-typed one mapped. -/
def StatusPorts.map {N M : Type} (f : N → M) (p : StatusPorts N) : StatusPorts M where
  st_v_phase   := f p.st_v_phase
  st_v_level   := f p.st_v_level
  st_v_rstep   := f p.st_v_rstep
  st_v_freq    := f p.st_v_freq
  st_v_stage   := p.st_v_stage
  st_v_sr      := f p.st_v_sr
  st_v_wave    := p.st_v_wave
  st_v_attack  := f p.st_v_attack
  st_v_decay   := f p.st_v_decay
  st_v_sustain := f p.st_v_sustain
  st_v_release := f p.st_v_release
  st_l_phase   := f p.st_l_phase
  st_l_freq    := f p.st_l_freq
  st_l_sr      := f p.st_l_sr
  st_l_wave    := p.st_l_wave
  st_illegal   := p.st_illegal

end Sys2Proof.Machine
end

