-- ==== Sys2Proof/Machine/FinitePorts.lean ====
section
/-! DEFINITION. The pins of a block whose `NUM` is a finite format (rules R6, R49): what it does with the `10 + NUM_W` bits of a
command word, and the `NUM_W` bits it drives on every `NUM`-typed port. -/

namespace Sys2Proof.Machine

/-- The bits of a command word are accepted (rules R48, R49, R52). -/
def Regs.acceptBits {N : Type} (F : NumFormat N) (A : Arith N) (wrap : PhaseWrap) (cmd : BitVec (F.width + 10)) (r : Regs N) :
    Reply N :=
  r.accept A wrap (CmdWord.ofPattern F cmd)

/-- `rsp_sample` while `rsp_valid` is 1 (rules R48, R50), none while it is 0. -/
def Reply.rspBits {N : Type} (F : NumFormat N) (y : Reply N) : Option (BitVec F.width) := y.rsp.map F.bits

/-- The status ports (rule R33). -/
def Regs.statusBits {N : Type} (F : NumFormat N) (r : Regs N) : StatusPorts (BitVec F.width) := r.status.map F.bits

end Sys2Proof.Machine
end

