-- ==== Sys2Proof/Machine/Program.lean ====
section
/-! DEFINITION. Command sequences (rule R44): running one, the pseudo-commands that abbreviate them (rule R57), and the
assembler's lines (rule R56). -/

namespace Sys2Proof.Machine

/-- The left fold of rule R44: the commands run one after the other, each to completion; the answer is the state after the
last and the responses in the order they were returned. -/
def runCommands : List Instr → State → Host.Outcome (State × List NUM) Fault Refusal
  | [], s => .next (s, [])
  | i :: is, s =>
    match exec i s with
    | .fault r => .fault r
    | .refused r => .refused r
    | .next s' =>
      match runCommands is s' with
      | .fault r => .fault r
      | .refused r => .refused r
      | .next (t, out) => .next (t, s'.rsp.toList ++ out)

/-- `V_CONFIG sr, w, a, d, s, r` (rule R57). -/
def vConfig (sr : NUM) (w : Wave) (a d s r : NUM) : List Instr :=
  [.vSetSr sr, .vSetWave w.tag, .vSetAttack a, .vSetDecay d, .vSetSustain s, .vSetRelease r]

/-- `L_CONFIG sr, w, f` (rule R57). -/
def lConfig (sr : NUM) (w : Wave) (f : NUM) : List Instr :=
  [.lSetSr sr, .lSetWave w.tag, .lSetFreq f]

/-- `V_STEPN n, f` (rule R57). -/
def vStepN (n : Nat) (f : NUM) : List Instr := List.replicate n (.vStep f)

/-- `L_STEPN n` (rule R57). -/
def lStepN (n : Nat) : List Instr := List.replicate n .lStep

/-- `SET_SR_ALL sr` (rules R57, R95). -/
def setSrAll (sr : NUM) : List Instr := [.vSetSr sr, .lSetSr sr]

/-- `TICK pitch, depth` in the state `s` (rule R57): `L_STEP` returning `m`, then `V_STEP (pitch + m*depth)`. -/
def tick (pitch depth : NUM) (s : State) : List Instr :=
  [.lStep, .vStep (modulated Arith.rat pitch depth (s.l.output Arith.rat))]

/-- `ADD_VOICE sr, w, pitch`, for a freshly reset Voice instance (rules R57, R94). -/
def addVoice (sr : NUM) (w : Wave) (pitch : NUM) : List Instr :=
  [.vSetSr sr, .vSetWave w.tag, .vNoteOn pitch]

/-- The operand of an assembler line (rule R56). -/
inductive AsmOperand where
  | none
  | num (q : NUM)
  | wave (w : Wave)
deriving DecidableEq, Repr

/-- A line `MNEMONIC` or `MNEMONIC operand` of a command sequence (rule R56), its text already split into the two words. -/
structure AsmLine where
  mnemonic : String
  operand  : AsmOperand
deriving DecidableEq, Repr

/-- The command a line stands for (rules R51, R56). -/
def AsmLine.instr? (line : AsmLine) : Option Instr :=
  match line.mnemonic, line.operand with
  | "V_SET_SR", .num q => some (.vSetSr q)
  | "V_SET_WAVE", .wave w => some (.vSetWave w.tag)
  | "V_SET_ATTACK", .num q => some (.vSetAttack q)
  | "V_SET_DECAY", .num q => some (.vSetDecay q)
  | "V_SET_SUSTAIN", .num q => some (.vSetSustain q)
  | "V_SET_RELEASE", .num q => some (.vSetRelease q)
  | "V_SET_FREQ", .num q => some (.vSetFreq q)
  | "V_NOTE_ON", .num q => some (.vNoteOn q)
  | "V_NOTE_OFF", .none => some .vNoteOff
  | "V_STEP", .num q => some (.vStep q)
  | "L_SET_SR", .num q => some (.lSetSr q)
  | "L_SET_WAVE", .wave w => some (.lSetWave w.tag)
  | "L_SET_FREQ", .num q => some (.lSetFreq q)
  | "L_STEP", .none => some .lStep
  | _, _ => none

/-- The command word a line assembles to; unused fields are 0 (rule R56). -/
def AsmLine.assemble (line : AsmLine) : Option (CmdWord NUM) := line.instr?.map encode

end Sys2Proof.Machine
end

