-- ==== Sys2Proof/Machine/Engine.lean ====
section
/-! DEFINITION. The host contract (rules R91 to R101): the Engine that drives the Voice instances and the LFO, over any numeric
domain. None of it is state or behaviour of the block; it says which commands the host issues, through the block's own
operations. -/

namespace Sys2Proof.Machine

/-- The Engine's structural commands (rule R94). The rule tests `0 <= p < n` and gives a position no type. DESIGN CHOICE, log
entry 13: a position is an integer, so a negative one can be enqueued, and is no valid index. -/
inductive EngineCmd (N : Type) where
  | addVoice
  | removeVoice (position : Int)
  | setVoiceFrequency (position : Int) (freq : N)
deriving DecidableEq, Repr

/-- The Engine's state (rule R91). The Voice instances share no register (rule R113). -/
structure Engine (N : Type) where
  voices      : List (Voice N)
  lfo         : Lfo N
  masterPitch : N
  lfoRate     : N
  lfoDepth    : N
  /-- The sample rate and the waveform new voices get (rule R94). -/
  sr          : N
  defaultWave : Wave
  queue       : List (EngineCmd N)
  capacity    : Nat
  /-- The parameters of its Voice instances and of its LFO (rule R6); no operation changes them. -/
  cfg         : Params N
deriving DecidableEq, Repr

/-- The Engine right after its construction (rule R101): exactly one voice, the default one, and the LFO, with nothing queued.
DESIGN CHOICE, log entry 13: the spec says neither what that voice's parameters are nor whether it is note-on'd (N5), so
it is an argument, as are the scalars, the rates and the capacity; the LFO is in its reset state (rule R37). -/
def Engine.construct {N : Type} (A : Arith N) (c : Params N) (defaultVoice : Voice N) (sr : N) (defaultWave : Wave)
    (masterPitch lfoRate lfoDepth : N) (capacity : Nat) : Engine N where
  voices      := [defaultVoice]
  lfo         := Lfo.reset A.zero c.reset
  masterPitch := masterPitch
  lfoRate     := lfoRate
  lfoDepth    := lfoDepth
  sr          := sr
  defaultWave := defaultWave
  queue       := []
  capacity    := capacity
  cfg         := c

/-! ## The command queue (rule R97) -/

/-- `push`, the entry point `enqueue` (rule R99): false, and nothing stored, when the queue is full (rule R97). -/
def Engine.push {N : Type} (e : Engine N) (c : EngineCmd N) : Bool × Engine N :=
  if e.queue.length < e.capacity then (true, { e with queue := e.queue ++ [c] }) else (false, e)

/-- `pop`: nothing when the queue is empty, else the oldest entry (rule R97). -/
def Engine.pop {N : Type} (e : Engine N) : Option (EngineCmd N) × Engine N :=
  match e.queue with
  | [] => (none, e)
  | c :: rest => (some c, { e with queue := rest })

/-! ## The structural commands (rule R94) -/

/-- A new voice (rule R94): on a Voice instance in its reset state `V_SET_SR`, `V_SET_WAVE`, `V_NOTE_ON`. -/
def Engine.newVoice {N : Type} (A : Arith N) (e : Engine N) : Voice N :=
  (((Voice.reset A.zero e.cfg.reset).setSr A e.sr).setWave e.defaultWave).noteOn e.masterPitch

/-- `0 <= p < n`: the position is an index of the collection as it stands (rule R94). -/
abbrev Engine.Valid {N : Type} (e : Engine N) (p : Int) : Prop := 0 ≤ p ∧ p < e.voices.length

/-- One structural command (rule R94); an invalid position is silently ignored (rules R94, R110). -/
def Engine.apply {N : Type} (A : Arith N) (e : Engine N) (c : EngineCmd N) : Engine N :=
  match c with
  | .addVoice => { e with voices := e.voices ++ [e.newVoice A] }
  | .removeVoice p => if e.Valid p then { e with voices := e.voices.eraseIdx p.toNat } else e
  | .setVoiceFrequency p f =>
    if e.Valid p then { e with voices := e.voices.modify p.toNat (fun v => v.setFreq f) } else e

/-- `applyPendingCommands`: drains what the queue holds, oldest first (rule R97). -/
def Engine.applyPending {N : Type} (A : Arith N) (e : Engine N) : Engine N :=
  e.queue.foldl (Engine.apply A) { e with queue := [] }

/-! ## The scalars and the sample rate (rules R95, R96) -/

/-- Storing the scalar master pitch: the last write wins (rule R96). -/
def Engine.setMasterPitch {N : Type} (e : Engine N) (x : N) : Engine N := { e with masterPitch := x }

/-- Storing the scalar LFO rate; it does not reach the LFO by itself (rule R96). -/
def Engine.setLfoRate {N : Type} (e : Engine N) (x : N) : Engine N := { e with lfoRate := x }

/-- Storing the scalar LFO depth (rule R96). -/
def Engine.setLfoDepth {N : Type} (e : Engine N) (x : N) : Engine N := { e with lfoDepth := x }

/-- `L_SET_FREQ lfo_rate`, which a host that wants the LFO-rate scalar to act issues itself; when it does so is open (rule
R96; D27), so `renderBlock` does not. -/
def Engine.applyLfoRate {N : Type} (e : Engine N) : Engine N := { e with lfo := e.lfo.setFreq e.lfoRate }

/-- `setSampleRate(sr)`: `V_SET_SR` to every voice and `L_SET_SR` to the LFO (rule R95). DESIGN CHOICE, log entry 13: the rule
names only those; the model also stores `sr`, as it is and not clamped, as the sample rate that later AddVoice commands
use (their `V_SET_SR` clamps it). -/
def Engine.setSampleRate {N : Type} (A : Arith N) (e : Engine N) (sr : N) : Engine N :=
  { e with sr := sr, voices := e.voices.map (fun v => v.setSr A sr), lfo := e.lfo.setSr A sr }

/-! ## Rendering (rules R92, R93, R100) -/

/-- The modulated frequency of one sample, the same for every voice (rule R92). -/
def Engine.fm {N : Type} (A : Arith N) (e : Engine N) : N := modulated A e.masterPitch e.lfoDepth (e.lfo.output A)

/-- What each voice contributes to one sample, in collection order (rule R92). -/
def Engine.voiceSamples {N : Type} (A : Arith N) (e : Engine N) : List N :=
  e.voices.map (fun v => v.output A e.cfg.wrap (e.fm A))

/-- The host's sum: `out <- 0`, then `out <- out + x` in collection order (rule R92); no normalization and no clamp (rule
R100). -/
def mix {N : Type} (A : Arith N) (xs : List N) : N := xs.foldl A.add A.zero

/-- `RENDER_SAMPLE` (rule R92): one `L_STEP`, then one `V_STEP fm` on every voice, whose samples are summed. -/
def Engine.renderSample {N : Type} (A : Arith N) (e : Engine N) : N × Engine N :=
  (mix A (e.voiceSamples A),
   { e with lfo := e.lfo.tick A e.cfg.wrap, voices := e.voices.map (fun v => v.tick A e.cfg.wrap (e.fm A)) })

/-- `n` output samples in turn. -/
def Engine.renderSamples {N : Type} (A : Arith N) : Nat → Engine N → List N × Engine N
  | 0, e => ([], e)
  | n + 1, e =>
    let first := e.renderSample A
    let others := Engine.renderSamples A n first.2
    (first.1 :: others.1, others.2)

/-- `RENDER_BLOCK(n)`, the entry point `fill` (rules R93, R99): the pending commands once, before the block's first sample, then
the buffer's `n` single-channel samples. -/
def Engine.renderBlock {N : Type} (A : Arith N) (n : Nat) (e : Engine N) : List N × Engine N :=
  Engine.renderSamples A n (e.applyPending A)

end Sys2Proof.Machine
end

