-- ==== Sys2Proof/Safety.lean ====
section
/-! DEFINITION. The words claims are made in: what an exact numeric domain is, the real waveforms, the invariants of rules R35,
R75, R80 and R89, what a good run is, and the stage relation of rule R36. -/

namespace Sys2Proof

/-- `NUM = EXACT` (rules R6, R11): the domain's operations are the exact ones of an ordered field, a division by zero apart, and
its sine has what rule R73 says of it. -/
structure Arith.Exact {N : Type} [Field N] [LinearOrder N] [FloorRing N] (A : Arith N) : Prop where
  zero   : A.zero = 0
  one    : A.one = 1
  two    : A.two = 2
  half   : A.half = 1 / 2
  fifth  : A.fifth = 1 / 5
  negOne : A.negOne = -1
  add    : ∀ x y, A.add x y = x + y
  sub    : ∀ x y, A.sub x y = x - y
  mul    : ∀ x y, A.mul x y = x * y
  div    : ∀ x y, y ≠ 0 → A.div x y = x / y
  floor  : ∀ x, A.floor x = (⌊x⌋ : N)
  lt     : ∀ x y, A.lt x y = true ↔ x < y
  le     : ∀ x y, A.le x y = true ↔ x ≤ y
  eq     : ∀ x y, A.eq x y = true ↔ x = y
  sine_range    : ∀ p, -1 ≤ A.sin2pi p ∧ A.sin2pi p ≤ 1
  sine_quarters : A.sin2pi 0 = 0 ∧ A.sin2pi (1 / 4) = 1 ∧ A.sin2pi (1 / 2) = 0 ∧ A.sin2pi (3 / 4) = -1
  sine_period   : ∀ (p : N) (k : ℤ), A.sin2pi (p + k) = A.sin2pi p

/-- Rule R12's `wave(w, p)` with the exact real sine. -/
noncomputable def waveReal (w : Wave) (p : ℝ) : ℝ :=
  match w with
  | .sine => Real.sin (2 * Real.pi * p)
  | .square => if p < 1 / 2 then 1 else -1
  | .saw => 2 * p - 1

/-- A phase at which the sine of the rational machine is the real sine (log entry 4). -/
def SineExactAt (p : NUM) : Prop := ((Machine.sin2pi p : NUM) : ℝ) = Real.sin (2 * Real.pi * (p : ℝ))

/-- `p` in `[0,1)` (rule R13). -/
abbrev InUnit {N : Type} [LE N] [LT N] [Zero N] [One N] (p : N) : Prop := 0 ≤ p ∧ p < 1

/-- An illegal command word (rule R54): (a) its `op` is none of the fourteen, or (b) it selects waveform tag 3. -/
def CmdWord.Illegal {N : Type} (w : CmdWord N) : Prop :=
  w.op ∉ ([0x01, 0x02, 0x03, 0x04, 0x05, 0x06, 0x07, 0x08, 0x09, 0x0A, 0x81, 0x82, 0x87, 0x8A] : List Op) ∨
    ((w.op = 0x02 ∨ w.op = 0x82) ∧ w.wave = 3)

namespace Machine

/-- The Voice's part of rule R35. -/
structure Voice.Inv {N : Type} [LE N] [Zero N] [One N] (v : Voice N) : Prop where
  level_nonneg   : 0 ≤ v.level
  level_le_one   : v.level ≤ 1
  sr_ge_one      : 1 ≤ v.sr
  attack_nonneg  : 0 ≤ v.attack
  decay_nonneg   : 0 ≤ v.decay
  release_nonneg : 0 ≤ v.release
  sustain_nonneg : 0 ≤ v.sustain
  sustain_le_one : v.sustain ≤ 1
  rstep_nonneg   : 0 ≤ v.rstep

/-- Rule R35. Its clauses on `V.stage`, `V.wave` and `L.wave` hold by their types. -/
structure Regs.Inv {N : Type} [LE N] [Zero N] [One N] (r : Regs N) : Prop where
  voice : r.v.Inv
  lfo_sr_ge_one : 1 ≤ r.l.sr

/-- Rule R35, of a machine whose reset parameters are legal (rule R6). -/
structure State.Inv (s : State) : Prop where
  regs : s.toRegs.Inv
  reset_legal : s.cfg.reset.Legal

/-- What ties the envelope's stage to its level (rules R70, R80, R81): Off is silent, and a release that has still to fall has a
positive step. -/
structure Voice.EnvInv {N : Type} [LT N] [Zero N] (v : Voice N) : Prop where
  off_silent      : v.stage = .off → v.level = 0
  release_falling : v.stage = .release → 0 < v.level → 0 < v.rstep

/-- `n` steps of the machine, stopping where a step stops (rule R44). -/
def steps : Nat → State → Host.Outcome State Fault Refusal
  | 0, s => .next s
  | n + 1, s =>
    match step s with
    | .next t => steps n t
    | .fault r => .fault r
    | .refused r => .refused r

/-- A good state: no illegal command has been seen (rules R54, R104; U5). -/
abbrev State.Good (s : State) : Prop := s.illegal = false

/-- The host's range obligation along a command sequence (rules R75, R89, R122): every `V_STEP` has its operand in
`[0, V.sr]` and every `L_STEP` its frequency in `[0, L.sr]`, at the rates in force when it runs. -/
def StepsInRange : List Instr → State → Prop
  | [], _ => True
  | i :: is, s =>
    (∀ f, i = .vStep f → 0 ≤ f ∧ f ≤ s.v.sr) ∧ (i = .lStep → 0 ≤ s.l.freq ∧ s.l.freq ≤ s.l.sr) ∧
      ∀ t, exec i s = .next t → StepsInRange is t

/-- The phase step of rule R74 as a formula, for both values of `PHASE_WRAP`, on the sum `p` of phase and increment. -/
def wrapped {N : Type} [Ring N] [LinearOrder N] [FloorRing N] (wrap : PhaseWrap) (p : N) : N :=
  match wrap with
  | .literal => if p ≥ 1 then p - 1 else p
  | .modular => p - ⌊p⌋

end Machine

end Sys2Proof
end

