-- ==== Sys2Proof/Certificates/Slice0/Obligations.lean ====
section
/-! DEFINITION. The statements for the provers. Each says which rule of the spec it formalises, or that it is the model's own. -/

open Sys2Proof Sys2Proof.Machine

/-! ## Encoding -/

/-- Words written out from rule R51's table (op in bits 7 to 0, wave in bits 9 to 8), one or two of each family. -/
def Obligations.WrittenWordsDecode : Prop :=
  decode (.ofLo10 0b0000000001 48000) = .ok (.vSetSr 48000) ∧
  decode (.ofLo10 0b1000000010 0) = .ok (.vSetWave 2) ∧
  decode (.ofLo10 0b0000001000 440) = .ok (.vNoteOn 440) ∧
  decode (.ofLo10 0b1000001001 99) = .ok .vNoteOff ∧
  decode (.ofLo10 0b1100001010 1) = .ok (.vStep 1) ∧
  decode (.ofLo10 0b0010000111 (-1)) = .ok (.lSetFreq (-1)) ∧
  decode (.ofLo10 0b0110001010 5) = .ok .lStep ∧
  decode (.ofLo10 0b0000001011 0) = .illegalOp 0x0B

/-- Decoding and encoding agree in both directions: a well-formed instruction is read back with every operand at every value,
and a word that decodes is the word of its instruction in every field the command uses (rules R49, R51 to R53). -/
def Obligations.DecodeEncodeAgree : Prop :=
  (∀ i : Instr, i.wf = true → decode (encode i) = .ok i) ∧
  (∀ (w : CmdWord NUM) (i : Instr), decode w = .ok i →
    encode i = ⟨w.op, if i.usesWave then w.wave else 0, if i.usesArg then w.arg else 0⟩)

/-- The bits of a command word (rules R49, R56): no bit of `op`, `wave` or of the operand field is dropped or moved. That the
operand field's bits are read as an unsigned integer is the MODEL's choice (log entry 5). -/
def Obligations.CommandWordBits : Prop :=
  (∀ (nbits n : Nat) (w : CmdWord NUM), w.toBits n < 2 ^ nbits →
    CmdWord.ofBits nbits (w.toBits n) = ⟨w.op, w.wave, (n : NUM)⟩) ∧
  (∀ w : CmdWord NUM, w.lo10.toNat = w.wave.toNat * 256 + w.op.toNat ∧ CmdWord.ofLo10 w.lo10 w.arg = w)

/-- Rule R51, the table whole: each opcode's command with the fields it uses, every other opcode illegal, and which commands
return a sample. -/
def Obligations.OpcodeMap : Prop :=
  (∀ (t : Tag) (a : NUM),
    decode ⟨0x01, t, a⟩ = .ok (.vSetSr a) ∧ decode ⟨0x02, t, a⟩ = .ok (.vSetWave t) ∧
    decode ⟨0x03, t, a⟩ = .ok (.vSetAttack a) ∧ decode ⟨0x04, t, a⟩ = .ok (.vSetDecay a) ∧
    decode ⟨0x05, t, a⟩ = .ok (.vSetSustain a) ∧ decode ⟨0x06, t, a⟩ = .ok (.vSetRelease a) ∧
    decode ⟨0x07, t, a⟩ = .ok (.vSetFreq a) ∧ decode ⟨0x08, t, a⟩ = .ok (.vNoteOn a) ∧
    decode ⟨0x09, t, a⟩ = .ok .vNoteOff ∧ decode ⟨0x0A, t, a⟩ = .ok (.vStep a) ∧
    decode ⟨0x81, t, a⟩ = .ok (.lSetSr a) ∧ decode ⟨0x82, t, a⟩ = .ok (.lSetWave t) ∧
    decode ⟨0x87, t, a⟩ = .ok (.lSetFreq a) ∧ decode ⟨0x8A, t, a⟩ = .ok .lStep) ∧
  (∀ w : CmdWord NUM,
    w.op ∉ ([0x01, 0x02, 0x03, 0x04, 0x05, 0x06, 0x07, 0x08, 0x09, 0x0A, 0x81, 0x82, 0x87, 0x8A] : List Op) →
      decode w = .illegalOp w.op) ∧
  (∀ (i : Instr) (s t : State), exec i s = .next t → (t.rsp ≠ none ↔ (∃ f, i = .vStep f) ∨ i = .lStep))

/-- Rule R53: a field a command does not use is ignored, whatever its value, and the assembler writes 0 there. -/
def Obligations.UnusedFieldsIgnored : Prop :=
  (∀ (s : State) (es : List (PortEvent NUM)) (op : Op) (t t' : Tag) (a a' : NUM),
    (op = 0x09 ∨ op = 0x8A →
      step { s with input := .command ⟨op, t, a⟩ :: es } = step { s with input := .command ⟨op, t', a'⟩ :: es }) ∧
    (op ≠ 0x02 → op ≠ 0x82 →
      step { s with input := .command ⟨op, t, a⟩ :: es } = step { s with input := .command ⟨op, t', a⟩ :: es }) ∧
    (op = 0x02 ∨ op = 0x82 →
      step { s with input := .command ⟨op, t, a⟩ :: es } = step { s with input := .command ⟨op, t, a'⟩ :: es })) ∧
  (∀ i : Instr, (i.usesWave = false → (encode i).wave = 0) ∧ (i.usesArg = false → (encode i).arg = 0))

/-! ## The machine step, the ports, illegal commands, reset -/

/-- A step runs the decoded command: the next event's word, decoded, is run by exec on the state with the later events still
to come; nothing else happens (rules R31, R44, R48). -/
def Obligations.StepRunsDecodedCommand : Prop :=
  ∀ (s : State) (w : CmdWord NUM) (es : List (PortEvent NUM)) (i : Instr),
    s.input = .command w :: es → decode w = .ok i → step s = exec i { s with input := es }

/-- With no command presented every register is held and no response is driven (rules R105, R115). -/
def Obligations.IdleHoldsEveryRegister : Prop :=
  ∀ (s : State) (es : List (PortEvent NUM)),
    (s.input = [] → step s = .next { s with rsp := none }) ∧
    (s.input = .idle :: es → step s = .next { s with rsp := none, input := es })

/-- Rule R54: an illegal command sets `S.illegal`, changes no other register, returns no sample and completes; the next
command is then accepted as usual. -/
def Obligations.IllegalCommandOnlySetsFlag : Prop :=
  ∀ (s : State) (w : CmdWord NUM) (es : List (PortEvent NUM)),
    s.input = .command w :: es → w.Illegal →
      step s = .next { s with illegal := true, rsp := none, input := es }

/-- Rules R21, R104, R108: the flag is sticky. An event other than reset leaves it set where it was set, and sets it exactly
where the event is an illegal command; reset clears it. -/
def Obligations.IllegalFlagIsSticky : Prop :=
  ∀ (s t : State) (e : PortEvent NUM) (es : List (PortEvent NUM)), s.input = e :: es → step s = .next t →
    (e = .rst → t.illegal = false) ∧
    (e ≠ .rst → (t.illegal = true ↔ s.illegal = true ∨ ∃ w, e = .command w ∧ w.Illegal))

/-- Every command completes, and so does every step: nothing stops the block (rule R103). In a state that meets rule R35 no
divisor is zero (rule R83), so the free quotient of log entry 3 is never used there. -/
def Obligations.EveryCommandCompletes : Prop :=
  (∀ (i : Instr) (s : State), ∃ t, exec i s = .next t) ∧ (∀ s : State, ∃ t, step s = .next t) ∧
  (∀ s : State, s.Inv → 0 < s.v.sr ∧ 0 < s.l.sr ∧ (s.v.attack ≠ 0 → 0 < s.v.attack * s.v.sr) ∧
    (s.v.decay ≠ 0 → 0 < s.v.decay * s.v.sr) ∧ (s.v.release ≠ 0 → 0 < s.v.release * s.v.sr))

/-- A sequence of well-formed commands never raises IllegalCommand (rules R54, R104; U5). -/
def Obligations.WellFormedSequencesStayGood : Prop :=
  ∀ (is : List Instr) (s : State), (∀ i ∈ is, i.wf = true) →
    ∃ t out, runCommands is s = .next (t, out) ∧ t.illegal = s.illegal

/-- Rule R37: the reset values, for every choice of the nine open parameters. -/
def Obligations.ResetValues : Prop :=
  ∀ c : Params NUM,
    (State.resetWith c).v = ⟨0, 0, 0, 0, .off, c.reset.vSr, c.reset.vWave, c.reset.vAttack, c.reset.vDecay, c.reset.vSustain,
      c.reset.vRelease⟩ ∧
    (State.resetWith c).l = ⟨0, c.reset.lFreq, c.reset.lSr, c.reset.lWave⟩ ∧ (State.resetWith c).illegal = false

/-- Reset from any state gives the reset state of that state's parameters, with no response, whatever was there before (rules
R116 to R118). That `State.reset` has the nine legal values of `Config.resetParams` is the MODEL's choice (log entry 2). -/
def Obligations.ResetFromAnyState : Prop :=
  (∀ (s : State) (es : List (PortEvent NUM)), s.input = .rst :: es →
    step s = .next { State.resetWith s.cfg with input := es }) ∧
  State.reset.cfg.reset.Legal

/-- The reset state meets rule R35 for every legal choice of the open parameters (rule R117), and the envelope invariant. -/
def Obligations.ResetMeetsInvariants : Prop :=
  ∀ c : Params NUM, c.reset.Legal → (State.resetWith c).Inv ∧ (State.resetWith c).v.EnvInv

/-- Rule R33 with the encodings of rules R20 and R24: what the status ports show. -/
def Obligations.StatusPortsShowRegisters : Prop :=
  (∀ s : State, s.status = ⟨s.v.phase, s.v.level, s.v.rstep, s.v.freq, s.v.stage.code, s.v.sr, s.v.wave.tag, s.v.attack,
    s.v.decay, s.v.sustain, s.v.release, s.l.phase, s.l.freq, s.l.sr, s.l.wave.tag, if s.illegal then 1 else 0⟩) ∧
  (Stage.attack.code = 0 ∧ Stage.decay.code = 1 ∧ Stage.sustain.code = 2 ∧ Stage.release.code = 3 ∧ Stage.off.code = 4) ∧
  (Wave.sine.tag = 0 ∧ Wave.square.tag = 1 ∧ Wave.saw.tag = 2)

/-! ## The commands, one by one: the next state whole, so that everything not named is unchanged -/

/-- Rules R58, R60 to R64: the six numeric Voice setters. -/
def Obligations.VoiceSettersStoreClampedOperand : Prop :=
  ∀ (s : State) (t : Tag) (a : NUM),
    (decode ⟨0x01, t, a⟩ = .ok (.vSetSr a) ∧
      exec (.vSetSr a) s = .next { s with v := { s.v with sr := if a < 1 then 1 else a }, rsp := none }) ∧
    (decode ⟨0x03, t, a⟩ = .ok (.vSetAttack a) ∧
      exec (.vSetAttack a) s = .next { s with v := { s.v with attack := if a < 0 then 0 else a }, rsp := none }) ∧
    (decode ⟨0x04, t, a⟩ = .ok (.vSetDecay a) ∧
      exec (.vSetDecay a) s = .next { s with v := { s.v with decay := if a < 0 then 0 else a }, rsp := none }) ∧
    (decode ⟨0x05, t, a⟩ = .ok (.vSetSustain a) ∧
      exec (.vSetSustain a) s =
        .next { s with v := { s.v with sustain := if a < 0 then 0 else if a > 1 then 1 else a }, rsp := none }) ∧
    (decode ⟨0x06, t, a⟩ = .ok (.vSetRelease a) ∧
      exec (.vSetRelease a) s = .next { s with v := { s.v with release := if a < 0 then 0 else a }, rsp := none }) ∧
    (decode ⟨0x07, t, a⟩ = .ok (.vSetFreq a) ∧
      exec (.vSetFreq a) s = .next { s with v := { s.v with freq := a }, rsp := none })

/-- Rules R59, R86: the two waveform commands. Tags 0, 1, 2 select SINE, SQUARE, SAW; tag 3 raises IllegalCommand and leaves
the waveform. -/
def Obligations.WaveformCommands : Prop :=
  ∀ (s : State) (t : Tag) (a : NUM),
    decode ⟨0x02, t, a⟩ = .ok (.vSetWave t) ∧ decode ⟨0x82, t, a⟩ = .ok (.lSetWave t) ∧
    exec (.vSetWave 0) s = .next { s with v := { s.v with wave := .sine }, rsp := none } ∧
    exec (.vSetWave 1) s = .next { s with v := { s.v with wave := .square }, rsp := none } ∧
    exec (.vSetWave 2) s = .next { s with v := { s.v with wave := .saw }, rsp := none } ∧
    exec (.vSetWave 3) s = .next { s with illegal := true, rsp := none } ∧
    exec (.lSetWave 0) s = .next { s with l := { s.l with wave := .sine }, rsp := none } ∧
    exec (.lSetWave 1) s = .next { s with l := { s.l with wave := .square }, rsp := none } ∧
    exec (.lSetWave 2) s = .next { s with l := { s.l with wave := .saw }, rsp := none } ∧
    exec (.lSetWave 3) s = .next { s with illegal := true, rsp := none }

/-- Rules R85, R87: the two numeric LFO setters. -/
def Obligations.LfoSettersStoreOperand : Prop :=
  ∀ (s : State) (t : Tag) (a : NUM),
    (decode ⟨0x81, t, a⟩ = .ok (.lSetSr a) ∧
      exec (.lSetSr a) s = .next { s with l := { s.l with sr := if a < 1 then 1 else a }, rsp := none }) ∧
    (decode ⟨0x87, t, a⟩ = .ok (.lSetFreq a) ∧
      exec (.lSetFreq a) s = .next { s with l := { s.l with freq := a }, rsp := none })

/-- The pseudocode of `V_NOTE_ON`: the operand is the target frequency, the stage becomes Attack from any stage, and the level,
the phase, the release step and everything else are kept. -/
def Obligations.NoteOnForcesAttackAndKeepsLevel : Prop :=
  ∀ (s : State) (t : Tag) (a : NUM),
    decode ⟨0x08, t, a⟩ = .ok (.vNoteOn a) ∧
    exec (.vNoteOn a) s = .next { s with v := { s.v with freq := a, stage := .attack }, rsp := none }

/-- Rule R67, both branches. -/
def Obligations.NoteOffBranchesOnRelease : Prop :=
  ∀ (s : State) (t : Tag) (a : NUM), s.v.sr ≠ 0 →
    decode ⟨0x09, t, a⟩ = .ok .vNoteOff ∧
    exec .vNoteOff s =
      (if s.v.release = 0 then .next { s with v := { s.v with level := 0, stage := .off }, rsp := none }
       else .next { s with v := { s.v with rstep := s.v.level / (s.v.release * s.v.sr), stage := .release }, rsp := none })

/-- Rule R72 with the steps it names written out: the waveform at the phase before the advance (R73), the phase step (R74, under
either value of `PHASE_WRAP`), the envelope rule of the stage (R77 to R81), the response with the level after it (R82). The
sine of an irrational point is an uninterpreted function of the MODEL (log entry 4); RealBlockComputesSamples has the real one. -/
def Obligations.VStepComputesOneSample : Prop :=
  ∀ (s : State) (tag : Tag) (f : NUM), s.v.sr ≠ 0 →
    decode ⟨0x0A, tag, f⟩ = .ok (.vStep f) ∧
    let w : NUM :=
      match s.v.wave with
      | .sine => sin2pi s.v.phase
      | .square => if s.v.phase < 1 / 2 then 1 else -1
      | .saw => 2 * s.v.phase - 1
    let p := s.v.phase + f / s.v.sr
    let env : NUM × Stage :=
      match s.v.stage with
      | .attack =>
        if s.v.attack = 0 then (1, .decay)
        else if s.v.level + 1 / (s.v.attack * s.v.sr) ≥ 1 then (1, .decay)
        else (s.v.level + 1 / (s.v.attack * s.v.sr), .attack)
      | .decay =>
        if s.v.decay = 0 then (s.v.sustain, .sustain)
        else if s.v.level - (1 - s.v.sustain) / (s.v.decay * s.v.sr) ≤ s.v.sustain then (s.v.sustain, .sustain)
        else (s.v.level - (1 - s.v.sustain) / (s.v.decay * s.v.sr), .decay)
      | .sustain => (s.v.sustain, .sustain)
      | .release => if s.v.level - s.v.rstep ≤ 0 then (0, .off) else (s.v.level - s.v.rstep, .release)
      | .off => (0, .off)
    let phase := match s.cfg.wrap with
      | .literal => if p ≥ 1 then p - 1 else p
      | .modular => p - ⌊p⌋
    exec (.vStep f) s =
      .next { s with v := { s.v with phase := phase, level := env.1, stage := env.2 }, rsp := some (w * env.1 * (1 / 5)) }

/-- Rule R88: the LFO's sample is the bare waveform at the phase before the advance; only `L.phase` is written. The sine of an
irrational point is an uninterpreted function of the MODEL (log entry 4); RealBlockComputesSamples has the real one. -/
def Obligations.LStepReturnsBareWaveform : Prop :=
  ∀ (s : State) (tag : Tag) (a : NUM), s.l.sr ≠ 0 →
    decode ⟨0x8A, tag, a⟩ = .ok .lStep ∧
    let w : NUM :=
      match s.l.wave with
      | .sine => sin2pi s.l.phase
      | .square => if s.l.phase < 1 / 2 then 1 else -1
      | .saw => 2 * s.l.phase - 1
    let p := s.l.phase + s.l.freq / s.l.sr
    let phase := match s.cfg.wrap with
      | .literal => if p ≥ 1 then p - 1 else p
      | .modular => p - ⌊p⌋
    exec .lStep s = .next { s with l := { s.l with phase := phase }, rsp := some w }

/-- Rule R73, in every exact domain (the rationals and the reals, EveryExactDomain): the two formulas, what the rule says of the
sine (quarter points, period, range), and the ranges on `[0,1)` and off it. -/
def Obligations.WaveformGenerator : Prop :=
  ∀ (N : Type) [Field N] [LinearOrder N] [IsStrictOrderedRing N] [FloorRing N] (A : Arith N), A.Exact →
    (∀ p : N, waveValue A .square p = (if p < 1 / 2 then 1 else -1) ∧ waveValue A .saw p = 2 * p - 1) ∧
    (waveValue A .sine 0 = 0 ∧ waveValue A .sine (1 / 4) = 1 ∧ waveValue A .sine (1 / 2) = 0 ∧ waveValue A .sine (3 / 4) = -1) ∧
    (∀ (p : N) (k : ℤ), waveValue A .sine (p + k) = waveValue A .sine p) ∧
    (∀ (w : Wave) (p : N), InUnit p → -1 ≤ waveValue A w p ∧ waveValue A w p ≤ 1) ∧
    (∀ p : N, InUnit p → waveValue A .saw p < 1) ∧
    (∀ p : N, (p < 0 → waveValue A .square p = 1) ∧ (1 / 2 ≤ p → waveValue A .square p = -1) ∧
      (p < 0 → waveValue A .saw p < -1) ∧ (1 ≤ p → 1 ≤ waveValue A .saw p))

/-! ## The block over every numeric domain (rules R6, R11, R49) -/

/-- The machine's own domain, the rationals, and the reals with the exact sine are exact domains (rules R6, R11), the sine of the
reals is the real sine, and the rational machine's sine is that number at every phase that is a multiple of 1/4 or an odd
multiple of 1/12, and one in `[-1,1]` elsewhere (D2; log entry 4). -/
def Obligations.EveryExactDomain : Prop :=
  Arith.rat.Exact ∧ Arith.real.Exact ∧ (∀ p : ℝ, Arith.real.sin2pi p = Real.sin (2 * Real.pi * p)) ∧
  (∀ k : ℤ, SineExactAt (k / 4) ∧ SineExactAt (k / 2 + 1 / 12) ∧ SineExactAt (k / 2 + 5 / 12)) ∧
  (∀ p : NUM, -1 ≤ sin2pi p ∧ sin2pi p ≤ 1)

/-- What a step does with an event is what the block of `Regs.event` does at the rationals under the state's parameters, and
nothing else. That the machine that runs takes `NUM` to be the rationals, where rule R6's reference value is the reals, is the
MODEL's choice (log entry 1), and so is that the parameters stand in the state (log entry 14). -/
def Obligations.StepIsTheBlockAtTheRationals : Prop :=
  ∀ (s : State) (e : PortEvent NUM) (es : List (PortEvent NUM)), s.input = e :: es →
    step s = .next { s with toRegs := (s.toRegs.event Arith.rat s.cfg e).regs,
                            rsp := (s.toRegs.event Arith.rat s.cfg e).rsp, input := es }

/-- The block over the reals, `NUM = EXACT`, extends the one over the rationals: an event with rational operands on rational
registers that meet rule R35 leaves the same registers, and returns the same sample wherever the sines it reads are exact
(so under SQUARE and SAW always). -/
def Obligations.RealBlockExtendsRationalBlock : Prop :=
  ∀ (c : Params NUM) (e : PortEvent NUM) (r : Regs NUM), r.Inv →
    let real := (r.map Rat.cast).event Arith.real (c.map (Rat.cast : NUM → ℝ)) (e.map (Rat.cast : NUM → ℝ))
    real.regs = (r.event Arith.rat c e).regs.map Rat.cast ∧
    ((r.v.wave = .sine → SineExactAt r.v.phase) → (r.l.wave = .sine → SineExactAt r.l.phase) →
      real.rsp = (r.event Arith.rat c e).rsp.map Rat.cast)

/-- Over the reals (rules R72, R82, R88, R57, R92): the response of `V_STEP` is the exact waveform at the phase before the advance,
times the level after the envelope step, times 1/5; that of `L_STEP` the exact waveform; and `TICK` is an `L_STEP` and then a
`V_STEP` with exactly `pitch + m * depth`, `m` the sample the `L_STEP` returned. -/
def Obligations.RealBlockComputesSamples : Prop :=
  ∀ (c : Params ℝ) (r : Regs ℝ) (t : Tag) (f pitch depth : ℝ),
    let vs := r.event Arith.real c (.command ⟨0x0A, t, f⟩)
    let ls := r.event Arith.real c (.command ⟨0x8A, t, f⟩)
    vs.rsp = some (waveReal r.v.wave r.v.phase * vs.regs.v.level * (1 / 5)) ∧
    (r.v.sr ≠ 0 → vs.regs.v.phase = wrapped c.wrap (r.v.phase + f / r.v.sr)) ∧ vs.regs.l = r.l ∧
    ls.rsp = some (waveReal r.l.wave r.l.phase) ∧
    (r.l.sr ≠ 0 → ls.regs.l.phase = wrapped c.wrap (r.l.phase + r.l.freq / r.l.sr)) ∧ ls.regs.v = r.v ∧
    (r.tick Arith.real c.wrap pitch depth).1 = waveReal r.l.wave r.l.phase ∧
    (r.tick Arith.real c.wrap pitch depth).2 =
      ls.regs.event Arith.real c (.command ⟨0x0A, t, pitch + waveReal r.l.wave r.l.phase * depth⟩)

/-- Rule R35 in every exact domain, the reals among them: every event keeps the register invariant, so every state that any
events reach from reset under legal parameters meets it. -/
def Obligations.ExactBlockKeepsRegisterInvariant : Prop :=
  ∀ (N : Type) [Field N] [LinearOrder N] [IsStrictOrderedRing N] [FloorRing N] (A : Arith N), A.Exact →
    ∀ c : Params N, c.reset.Legal →
      (∀ (e : PortEvent N) (r : Regs N), r.Inv → (r.event A c e).regs.Inv) ∧
      (∀ es : List (PortEvent N), (Regs.events A c es (Regs.reset A.zero c.reset)).1.Inv)

/-- Rules R75 and R89 in every exact domain, under both values of `PHASE_WRAP`: operands and LFO frequencies in the host's range
keep the phases in `[0,1)`. Under MODULAR every operand does (U3). -/
def Obligations.ExactBlockPhases : Prop :=
  ∀ (N : Type) [Field N] [LinearOrder N] [IsStrictOrderedRing N] [FloorRing N] (A : Arith N), A.Exact →
    ∀ (c : Params N) (r : Regs N) (t : Tag) (f : N), r.Inv →
      let vs := (r.event A c (.command ⟨0x0A, t, f⟩)).regs
      let ls := (r.event A c (.command ⟨0x8A, t, f⟩)).regs
      (InUnit r.v.phase → 0 ≤ f → f ≤ r.v.sr → InUnit vs.v.phase) ∧
      (InUnit r.l.phase → 0 ≤ r.l.freq → r.l.freq ≤ r.l.sr → InUnit ls.l.phase) ∧
      (c.wrap = .modular → InUnit vs.v.phase ∧ InUnit ls.l.phase)

/-! ## What a command changes, and what it leaves unchanged -/

/-- Rule R15, column "written by": a register changes only under the commands listed for it. No command touches the parameters
or what the host has pending. -/
def Obligations.OnlyListedCommandsWriteEachRegister : Prop :=
  ∀ (i : Instr) (s t : State), exec i s = .next t →
    (t.v.phase ≠ s.v.phase → ∃ f, i = .vStep f) ∧
    (t.v.level ≠ s.v.level → (∃ f, i = .vStep f) ∨ i = .vNoteOff) ∧
    (t.v.rstep ≠ s.v.rstep → i = .vNoteOff) ∧
    (t.v.freq ≠ s.v.freq → (∃ a, i = .vNoteOn a) ∨ ∃ a, i = .vSetFreq a) ∧
    (t.v.stage ≠ s.v.stage → (∃ a, i = .vNoteOn a) ∨ i = .vNoteOff ∨ ∃ f, i = .vStep f) ∧
    (t.v.sr ≠ s.v.sr → ∃ a, i = .vSetSr a) ∧ (t.v.wave ≠ s.v.wave → ∃ w, i = .vSetWave w) ∧
    (t.v.attack ≠ s.v.attack → ∃ a, i = .vSetAttack a) ∧ (t.v.decay ≠ s.v.decay → ∃ a, i = .vSetDecay a) ∧
    (t.v.sustain ≠ s.v.sustain → ∃ a, i = .vSetSustain a) ∧ (t.v.release ≠ s.v.release → ∃ a, i = .vSetRelease a) ∧
    (t.l.phase ≠ s.l.phase → i = .lStep) ∧ (t.l.freq ≠ s.l.freq → ∃ a, i = .lSetFreq a) ∧
    (t.l.sr ≠ s.l.sr → ∃ a, i = .lSetSr a) ∧ (t.l.wave ≠ s.l.wave → ∃ w, i = .lSetWave w) ∧
    (t.illegal ≠ s.illegal → i = .vSetWave 3 ∨ i = .lSetWave 3) ∧ t.cfg = s.cfg ∧ t.input = s.input

/-- The two units share no register (rules R88, R113): a Voice command leaves the LFO and runs the same whatever the LFO holds,
and an LFO command the same with the units exchanged. -/
def Obligations.UnitsAreIndependent : Prop :=
  ∀ (i : Instr) (s : State) (v' : Voice NUM) (l' : Lfo NUM),
    (i.isVoice = true → ∃ t, exec i s = .next t ∧ t.l = s.l ∧ exec i { s with l := l' } = .next { t with l := l' }) ∧
    (i.isVoice = false → ∃ t, exec i s = .next t ∧ t.v = s.v ∧ exec i { s with v := v' } = .next { t with v := v' })

/-- The target frequency is inert (rules R19, R64, R123): two runs of one command sequence from states that differ in `V.freq`
alone return the same responses and end in states that differ in `V.freq` at most. -/
def Obligations.TargetFrequencyIsInert : Prop :=
  ∀ (is : List Instr) (s : State) (f : NUM), ∃ t out g,
    runCommands is s = .next (t, out) ∧
    runCommands is { s with v := { s.v with freq := f } } = .next ({ t with v := { t.v with freq := g } }, out)

/-- A running release keeps its step (rules R63, R121): setting the release time, the sample rate or the sustain level during
stage Release changes neither the level nor the stage after the next sample. -/
def Obligations.RunningReleaseKeepsItsStep : Prop :=
  ∀ (s : State) (a f : NUM) (i : Instr), s.v.stage = .release →
    i = .vSetRelease a ∨ i = .vSetSr a ∨ i = .vSetSustain a →
    ∃ t u out out', runCommands [.vStep f] s = .next (t, out) ∧ runCommands [i, .vStep f] s = .next (u, out') ∧
      u.v.level = t.v.level ∧ u.v.stage = t.v.stage ∧ u.v.rstep = s.v.rstep ∧ t.v.rstep = s.v.rstep

/-- The setters and the note commands are idempotent, `V_STEP` is not (rule R41): issued twice in a row, with the same operand,
a command other than a step command leaves the state of the first. -/
def Obligations.NonStepCommandsAreIdempotent : Prop :=
  (∀ (i : Instr) (s : State), s.v.sr ≠ 0 → (∀ f, i ≠ .vStep f) → i ≠ .lStep →
    ∃ t, exec i s = .next t ∧ exec i t = .next t) ∧
  (∃ (f : NUM) (s t : State), exec (.vStep f) s = .next t ∧ exec (.vStep f) t ≠ .next t)

/-! ## Invariants -/

/-- Rule R35: every step keeps the invariant of the registers; so it holds of every state reached from reset, under every legal
choice of the reset parameters, by any sequence of commands and by any events at the pins. Its clauses on the stage and the
waveforms are the types. -/
def Obligations.StepKeepsRegisterInvariant : Prop :=
  (∀ s t : State, s.Inv → step s = .next t → t.Inv) ∧
  (∀ (c : Params NUM) (is : List Instr) (t : State) (out : List NUM), c.reset.Legal →
    runCommands is (State.resetWith c) = .next (t, out) → t.Inv) ∧
  (∀ (c : Params NUM) (n : Nat) (es : List (PortEvent NUM)) (t : State), c.reset.Legal →
    steps n { State.resetWith c with input := es } = .next t → t.Inv)

/-- In a state that meets rule R35, a step keeps the envelope's invariant too: Off is silent, and a release above level 0 has a
positive step, so that it ends (rules R70, R80). -/
def Obligations.StepKeepsEnvelopeInvariant : Prop :=
  ∀ s t : State, s.Inv → s.v.EnvInv → step s = .next t → t.v.EnvInv

/-- Rule R75: the phase stays in `[0,1)` under an operand in `[0, V.sr]`, and along every command sequence that keeps to that
range; outside it the literal wrap lets the phase fall, or grow past 1. -/
def Obligations.VoicePhaseInvariant : Prop :=
  (∀ (s : State) (f : NUM), 1 ≤ s.v.sr → InUnit s.v.phase → 0 ≤ f → f ≤ s.v.sr →
    ∃ t, exec (.vStep f) s = .next t ∧ InUnit t.v.phase) ∧
  (∀ (is : List Instr) (s : State), 1 ≤ s.v.sr → InUnit s.v.phase → StepsInRange is s →
    ∃ t out, runCommands is s = .next (t, out) ∧ InUnit t.v.phase) ∧
  (∀ (s : State) (f : NUM), s.cfg.wrap = .literal → 1 ≤ s.v.sr → f < 0 → s.v.phase < 1 →
    ∃ t, exec (.vStep f) s = .next t ∧ t.v.phase = s.v.phase + f / s.v.sr ∧ t.v.phase < s.v.phase) ∧
  (∀ (s : State) (f : NUM), s.cfg.wrap = .literal → 1 ≤ s.v.sr → s.v.sr < f → 1 ≤ s.v.phase →
    ∃ t, exec (.vStep f) s = .next t ∧ t.v.phase = s.v.phase + f / s.v.sr - 1 ∧ s.v.phase < t.v.phase)

/-- Rule R89: the LFO's phase stays in `[0,1)` while `0 <= L.freq <= L.sr`, and its samples in `[-1,1]`; a negative frequency
takes the phase below 0 for SAW to fall below -1 and SQUARE to stay at 1. -/
def Obligations.LfoPhaseInvariantAndRange : Prop :=
  (∀ s : State, 1 ≤ s.l.sr → InUnit s.l.phase → 0 ≤ s.l.freq → s.l.freq ≤ s.l.sr →
    ∃ t x, exec .lStep s = .next t ∧ t.rsp = some x ∧ InUnit t.l.phase ∧ -1 ≤ x ∧ x ≤ 1 ∧
      (s.l.wave = .square → x = 1 ∨ x = -1) ∧ (s.l.wave = .saw → x < 1)) ∧
  (∀ (is : List Instr) (s : State), 1 ≤ s.l.sr → InUnit s.l.phase → StepsInRange is s →
    ∃ t out, runCommands is s = .next (t, out) ∧ InUnit t.l.phase) ∧
  (∀ s : State, s.cfg.wrap = .literal → 1 ≤ s.l.sr → s.l.freq < 0 → s.l.phase < 1 →
    ∃ t x, exec .lStep s = .next t ∧ t.rsp = some x ∧ t.l.phase = s.l.phase - |s.l.freq| / s.l.sr ∧
      (s.l.phase < 0 → (s.l.wave = .saw → x = 2 * s.l.phase - 1 ∧ x < -1) ∧ (s.l.wave = .square → x = 1)))

/-- The output's range (rules R82, R125): at most one fifth in magnitude while the phase is in `[0,1)`, and 0 in stage Off
whatever the waveform. -/
def Obligations.VoiceOutputRange : Prop :=
  ∀ (s : State) (f : NUM), s.Inv →
    ∃ t x, exec (.vStep f) s = .next t ∧ t.rsp = some x ∧
      (InUnit s.v.phase → -(1 / 5) ≤ x ∧ x ≤ 1 / 5) ∧ (s.v.stage = .off → x = 0)

/-- The two values of `PHASE_WRAP` agree inside the host's range, in every exact domain (rule R74; U3). -/
def Obligations.LiteralAndModularWrapAgree : Prop :=
  ∀ (N : Type) [Field N] [LinearOrder N] [IsStrictOrderedRing N] [FloorRing N] (A : Arith N), A.Exact →
    ∀ p inc : N, InUnit p → 0 ≤ inc → inc ≤ 1 → advance A .literal p inc = advance A .modular p inc

/-! ## The envelope over many samples -/

/-- Rule R36: the stage relation whole, and the one sample a note-off in a silent Off passes through Release. -/
def Obligations.StageRelation : Prop :=
  (∀ (i : Instr) (s : State), s.v.sr ≠ 0 → 0 ≤ s.v.release →
    ∃ t, exec i s = .next t ∧ t.v.stage =
      match i, s.v.stage with
      | .vNoteOn _, _ => .attack
      | .vNoteOff, _ => if s.v.release > 0 then .release else .off
      | .vStep _, .attack => if s.v.attack = 0 ∨ s.v.level + 1 / (s.v.attack * s.v.sr) ≥ 1 then .decay else .attack
      | .vStep _, .decay =>
        if s.v.decay = 0 ∨ s.v.level - (1 - s.v.sustain) / (s.v.decay * s.v.sr) ≤ s.v.sustain then .sustain else .decay
      | .vStep _, .sustain => .sustain
      | .vStep _, .release => if s.v.level - s.v.rstep ≤ 0 then .off else .release
      | .vStep _, .off => .off
      | _, st => st) ∧
  (∀ (s : State) (f : NUM), s.v.sr ≠ 0 → 0 < s.v.release → s.v.stage = .off → s.v.level = 0 →
    ∃ t u, exec .vNoteOff s = .next t ∧ t.v.stage = .release ∧ t.v.rstep = 0 ∧
      exec (.vStep f) t = .next u ∧ u.v.stage = .off)

/-- With attack 0 and decay 0 a note needs two samples to reach Sustain: one transition per `V_STEP` (rule R76). -/
def Obligations.OneTransitionPerSample : Prop :=
  ∀ (s : State) (a f g : NUM), s.v.attack = 0 → s.v.decay = 0 →
    ∃ t u out out', runCommands [.vNoteOn a, .vStep f] s = .next (t, out) ∧ t.v.level = 1 ∧ t.v.stage = .decay ∧
      runCommands [.vStep g] t = .next (u, out') ∧ u.v.level = s.v.sustain ∧ u.v.stage = .sustain

/-- The length of an attack (rules R66, R77): from level `L` it lasts `max(1, ceil((1 - L) * attack * sr))` samples and the level
rises by `1/(attack * sr)` a sample. -/
def Obligations.AttackLength : Prop :=
  ∀ (s : State) (a : NUM) (fs : List NUM), 0 < s.v.attack → 0 < s.v.sr → s.v.level ≤ 1 →
    ∃ t out, runCommands (.vNoteOn a :: fs.map .vStep) s = .next (t, out) ∧
      (fs.length < max 1 ⌈(1 - s.v.level) * s.v.attack * s.v.sr⌉₊ →
        t.v.stage = .attack ∧ t.v.level = s.v.level + fs.length * (1 / (s.v.attack * s.v.sr)) ∧
        (s.v.level < 1 → t.v.level < 1)) ∧
      (fs.length = max 1 ⌈(1 - s.v.level) * s.v.attack * s.v.sr⌉₊ → t.v.stage = .decay ∧ t.v.level = 1)

/-- The length of a decay (rule R78): entered at level 1 with a sustain level below 1 it lasts `max(1, ceil(decay * sr))` samples,
never undershoots the sustain level and ends on it. -/
def Obligations.DecayLength : Prop :=
  ∀ (s : State) (fs : List NUM), s.v.stage = .decay → s.v.level = 1 → 0 < s.v.decay → 0 < s.v.sr → s.v.sustain < 1 →
    ∃ t out, runCommands (fs.map .vStep) s = .next (t, out) ∧ s.v.sustain ≤ t.v.level ∧
      (fs.length < max 1 ⌈s.v.decay * s.v.sr⌉₊ →
        t.v.stage = .decay ∧ t.v.level = 1 - fs.length * ((1 - s.v.sustain) / (s.v.decay * s.v.sr))) ∧
      (max 1 ⌈s.v.decay * s.v.sr⌉₊ ≤ fs.length → t.v.stage = .sustain ∧ t.v.level = s.v.sustain)

/-- Rule R71: the length of a release. After a note-off at level `L > 0` the level falls linearly and the stage becomes Off after
exactly `ceil(release * sr)` samples, whatever `L`; at level 0 it takes one sample. -/
def Obligations.ReleaseLength : Prop :=
  ∀ (s : State) (fs : List NUM), 0 < s.v.release → 0 < s.v.sr → 0 ≤ s.v.level →
    ∃ t out, runCommands (.vNoteOff :: fs.map .vStep) s = .next (t, out) ∧
      (0 < s.v.level →
        (fs.length < ⌈s.v.release * s.v.sr⌉₊ →
          t.v.stage = .release ∧ t.v.level = s.v.level - fs.length * s.v.level / (s.v.release * s.v.sr) ∧ 0 < t.v.level) ∧
        (⌈s.v.release * s.v.sr⌉₊ ≤ fs.length → t.v.stage = .off ∧ t.v.level = 0)) ∧
      (s.v.level = 0 → t.v.level = 0 ∧ (t.v.stage = .off ↔ 1 ≤ fs.length))

/-- A second note-off during Release recomputes the step from the current, lower level (rule R70 case 3); with no sample
between, it changes nothing. -/
def Obligations.SecondNoteOffRecomputesStep : Prop :=
  ∀ (s : State) (f : NUM), 0 < s.v.release → 0 < s.v.sr →
    ∃ t u w out out', runCommands [.vNoteOff, .vStep f] s = .next (t, out) ∧ exec .vNoteOff t = .next u ∧
      u.v.rstep = t.v.level / (s.v.release * s.v.sr) ∧ u.v.level = t.v.level ∧ u.v.stage = .release ∧
      u.v.freq = s.v.freq ∧ u.v.phase = t.v.phase ∧
      runCommands [.vNoteOff, .vNoteOff] s = .next (w, out') ∧ exec .vNoteOff s = .next w

/-! ## The oscillators over many samples -/

/-- The voice's phase after a run of in-range samples at a constant rate is the fractional part of the summed frequencies over
the rate (rule R84 item 6). -/
def Obligations.VoicePhaseIsFractionalPart : Prop :=
  ∀ (s : State) (fs : List NUM), 1 ≤ s.v.sr → InUnit s.v.phase → (∀ f ∈ fs, 0 ≤ f ∧ f ≤ s.v.sr) →
    ∃ t out, runCommands (fs.map .vStep) s = .next (t, out) ∧
      t.v.phase = Int.fract (s.v.phase + fs.sum / s.v.sr) ∧ out.length = fs.length

/-- The LFO's cycles (rule R90): at frequency 0, and at the sample rate, it is constant; where the rate is `n` times the
frequency its phase returns after `n` samples. -/
def Obligations.LfoConstantOrPeriodic : Prop :=
  (∀ (s : State) (n : Nat), 1 ≤ s.l.sr → InUnit s.l.phase → s.l.freq = 0 ∨ s.l.freq = s.l.sr →
    ∃ t, runCommands (lStepN n) s = .next (t, List.replicate n (waveValue Arith.rat s.l.wave s.l.phase)) ∧ t.l = s.l) ∧
  (∀ (s : State) (n : Nat), 1 ≤ s.l.sr → InUnit s.l.phase → 0 < s.l.freq → s.l.freq ≤ s.l.sr → s.l.sr = n * s.l.freq →
    ∃ t out, runCommands (lStepN n) s = .next (t, out) ∧ t.l = s.l ∧ out.length = n)

/-! ## The host contract -/

/-- The pseudo-commands (rule R57): what each leaves in the registers and which samples it returns. `V_STEPN n` and `L_STEPN n`
are, sample by sample, `n` successive commands, their responses in order. -/
def Obligations.PseudoCommands : Prop :=
  ∀ (s : State) (c : Params NUM) (sr a d su r f pitch depth : NUM) (w : Wave) (n : Nat),
    runCommands (vConfig sr w a d su r) s =
      .next ({ s with v := { s.v with sr := if sr < 1 then 1 else sr, wave := w, attack := if a < 0 then 0 else a,
                                      decay := if d < 0 then 0 else d,
                                      sustain := if su < 0 then 0 else if su > 1 then 1 else su,
                                      release := if r < 0 then 0 else r }, rsp := none }, []) ∧
    runCommands (lConfig sr w f) s =
      .next ({ s with l := { s.l with sr := if sr < 1 then 1 else sr, wave := w, freq := f }, rsp := none }, []) ∧
    (runCommands (vStepN 0 f) s = .next (s, []) ∧
      ∃ t x u out, exec (.vStep f) s = .next t ∧ t.rsp = some x ∧ runCommands (vStepN n f) t = .next (u, out) ∧
        out.length = n ∧ runCommands (vStepN (n + 1) f) s = .next (u, x :: out)) ∧
    (runCommands (lStepN 0) s = .next (s, []) ∧
      ∃ t x u out, exec .lStep s = .next t ∧ t.rsp = some x ∧ runCommands (lStepN n) t = .next (u, out) ∧
        out.length = n ∧ runCommands (lStepN (n + 1)) s = .next (u, x :: out)) ∧
    runCommands (setSrAll sr) s =
      .next ({ s with v := { s.v with sr := if sr < 1 then 1 else sr }, l := { s.l with sr := if sr < 1 then 1 else sr },
                      rsp := none }, []) ∧
    (∃ t m u x, exec .lStep s = .next t ∧ t.rsp = some m ∧ exec (.vStep (pitch + m * depth)) t = .next u ∧ u.rsp = some x ∧
      runCommands (tick pitch depth s) s = .next (u, [m, x])) ∧
    runCommands (addVoice sr w pitch) (State.resetWith c) =
      .next ({ State.resetWith c with
        v := { (State.resetWith c).v with sr := if sr < 1 then 1 else sr, wave := w, freq := pitch, stage := .attack } }, [])

/-- The command queue (rule R97): a full queue refuses and is not altered, an empty one answers nothing and is not altered, and
what is pushed is delivered in order. -/
def Obligations.EngineQueueIsFifo : Prop :=
  ∀ N : Type,
    (∀ (e : Engine N) (c : EngineCmd N), e.capacity ≤ e.queue.length → e.push c = (false, e)) ∧
    (∀ e : Engine N, e.queue = [] → e.pop = (none, e)) ∧
    (∀ (e : Engine N) (cs : List (EngineCmd N)), e.queue.length + cs.length ≤ e.capacity →
      (cs.foldl (fun e c => (e.push c).2) e).queue = e.queue ++ cs) ∧
    (∀ (e : Engine N) (c : EngineCmd N) (cs : List (EngineCmd N)), e.queue = c :: cs →
      e.pop = (some c, { e with queue := cs }))

/-- The Engine's structural commands (rule R94): a new voice is the one the ADD_VOICE sequence makes on a reset instance, appended;
RemoveVoice drops the voice at its position and later ones move down by one; SetVoiceFrequency touches `V.freq` of one voice;
a position outside `0 <= p < n` changes nothing, and no command changes anything but the collection. That a position is an
integer is the MODEL's choice (log entry 13). -/
def Obligations.EngineStructuralCommands : Prop :=
  ∀ e : Engine NUM,
    (∃ t, runCommands (addVoice e.sr e.defaultWave e.masterPitch) (State.resetWith e.cfg) = .next (t, []) ∧
      e.apply Arith.rat .addVoice = { e with voices := e.voices ++ [t.v] }) ∧
    (∀ (p : Int) (f : NUM), ¬(0 ≤ p ∧ p < e.voices.length) →
      e.apply Arith.rat (.removeVoice p) = e ∧ e.apply Arith.rat (.setVoiceFrequency p f) = e) ∧
    (∀ (p : Nat) (f : NUM), p < e.voices.length →
      let removed := e.apply Arith.rat (.removeVoice p)
      let tuned := e.apply Arith.rat (.setVoiceFrequency p f)
      removed = { e with voices := removed.voices } ∧ removed.voices.length + 1 = e.voices.length ∧
      (∀ q, q < p → removed.voices[q]? = e.voices[q]?) ∧ (∀ q, p ≤ q → removed.voices[q]? = e.voices[q + 1]?) ∧
      tuned = { e with voices := tuned.voices } ∧
      tuned.voices[p]? = e.voices[p]?.map (fun v => { v with freq := f }) ∧
      ∀ q, q ≠ p → tuned.voices[q]? = e.voices[q]?)

/-- `setSampleRate` (rule R95) writes the clamped rate of every voice and of the LFO and no other register; that it also stores the
rate for later AddVoice commands, unclamped, is the MODEL's choice (log entry 13). The scalars do not reach a voice or the LFO
by themselves (rule R96). -/
def Obligations.EngineSampleRateAndScalars : Prop :=
  ∀ (e : Engine NUM) (sr x : NUM),
    e.setSampleRate Arith.rat sr =
      { e with sr := sr, voices := e.voices.map (fun v => { v with sr := if sr < 1 then 1 else sr }),
               lfo := { e.lfo with sr := if sr < 1 then 1 else sr } } ∧
    ((e.setMasterPitch x).voices = e.voices ∧ (e.setLfoRate x).voices = e.voices ∧ (e.setLfoDepth x).voices = e.voices) ∧
    ((e.setMasterPitch x).lfo = e.lfo ∧ (e.setLfoRate x).lfo = e.lfo ∧ (e.setLfoDepth x).lfo = e.lfo) ∧
    (e.setLfoRate x).applyLfoRate = { e with lfoRate := x, lfo := { e.lfo with freq := x } }

/-- One rendered sample (rules R92, R100): the LFO is stepped once, every voice with the same `master_pitch + m * lfo_depth`, and the
output is the plain sum of what the voices return; it is 0 with no voices, each voice contributes at most 1/5 in magnitude, and
up to five voices stay in `[-1,1]`. In every exact domain. -/
def Obligations.RenderSampleSumsVoices : Prop :=
  ∀ (N : Type) [Field N] [LinearOrder N] [IsStrictOrderedRing N] [FloorRing N] (A : Arith N), A.Exact →
    ∀ e : Engine N,
      let fm := e.masterPitch + e.lfo.output A * e.lfoDepth
      e.renderSample A =
        ((e.voices.map (fun v => v.output A e.cfg.wrap fm)).sum,
         { e with lfo := e.lfo.tick A e.cfg.wrap, voices := e.voices.map (fun v => v.tick A e.cfg.wrap fm) }) ∧
      (e.voices = [] → (e.renderSample A).1 = 0) ∧
      ((∀ v ∈ e.voices, v.Inv ∧ InUnit v.phase) →
        |(e.renderSample A).1| ≤ e.voices.length / 5 ∧ (e.voices.length ≤ 5 → |(e.renderSample A).1| ≤ 1))

/-- One rendered sample in the host's range (rules R92, R122), in every exact domain: if the host keeps pitch and depth in rule
R122's range, every phase stays in `[0,1)`. -/
def Obligations.RenderSampleKeepsPhases : Prop :=
  ∀ (N : Type) [Field N] [LinearOrder N] [IsStrictOrderedRing N] [FloorRing N] (A : Arith N), A.Exact →
    ∀ e : Engine N, 1 ≤ e.lfo.sr → InUnit e.lfo.phase → 0 ≤ e.lfo.freq → e.lfo.freq ≤ e.lfo.sr →
      (∀ v ∈ e.voices, 1 ≤ v.sr ∧ InUnit v.phase ∧ 0 ≤ e.masterPitch - |e.lfoDepth| ∧ e.masterPitch + |e.lfoDepth| ≤ v.sr) →
      InUnit (e.renderSample A).2.lfo.phase ∧ (∀ v ∈ (e.renderSample A).2.voices, InUnit v.phase)

/-- A rendered block (rule R93): the pending commands are applied first, oldest first and once, and then exactly `n` samples are
rendered. That nothing is left in the queue afterwards is the MODEL's choice: it has no push during a drain (log entry 13). -/
def Obligations.RenderBlockDrainsThenRenders : Prop :=
  ∀ (N : Type) (A : Arith N) (e : Engine N) (n : Nat),
    e.renderBlock A n = Engine.renderSamples A n { e.queue.foldl (Engine.apply A) e with queue := [] } ∧
    (e.renderBlock A n).1.length = n ∧ (e.renderBlock A n).2.queue = []

/-- The Engine's lifecycle (rule R101) and the scenarios E8 and E9: it is constructed with one voice, the LFO and an empty queue;
only commands change the number of voices; an AddVoice enqueued before a block gives two voices after it. What the spec leaves
open of the first voice is an argument, the MODEL's choice (log entry 13). -/
def Obligations.EngineConstructedWithOneVoice : Prop :=
  ∀ (N : Type) (A : Arith N) (c : Params N) (v : Voice N) (sr : N) (w : Wave) (pitch rate depth : N) (capacity n : Nat),
    let e := Engine.construct A c v sr w pitch rate depth capacity
    e.voices = [v] ∧ e.lfo = Lfo.reset A.zero c.reset ∧ e.queue = [] ∧
    (e.renderBlock A n).2.voices.length = 1 ∧
    (0 < capacity → (e.push .addVoice).1 = true ∧ ((e.push .addVoice).2.renderBlock A n).2.voices.length = 2) ∧
    (e.push (.removeVoice 5)).2.renderBlock A n = e.renderBlock A n

/-! ## A finite `NUM` on the wires -/

/-- The command word of rule R49 under a finite `NUM` of width `NUM_W`: `op` in `cmd[7:0]`, `wave` in `cmd[9:8]`, the format's
pattern of the operand in `cmd[10+NUM_W-1:10]`, and it is read back whole; where every pattern is the one of its value, so is
every word of bits. `NUM = EXACT` has no format, over the rationals or over the reals. That every value of a finite format has
a pattern that is read back as that value is an inference of the MODEL (log entry 15). -/
def Obligations.FiniteFormatCommandWord : Prop :=
  (∀ (N : Type) (F : NumFormat N) (w : CmdWord N),
    (w.pattern F).extractLsb' 0 8 = w.op ∧ (w.pattern F).extractLsb' 8 2 = w.wave ∧
    (w.pattern F).extractLsb' 10 F.width = F.bits w.arg ∧
    (w.pattern F).toNat = w.op.toNat + 256 * w.wave.toNat + 1024 * (F.bits w.arg).toNat ∧
    CmdWord.ofPattern F (w.pattern F) = w) ∧
  (∀ (N : Type) (F : NumFormat N) (cmd : BitVec (F.width + 10)), (∀ p, F.bits (F.value p) = p) →
    (CmdWord.ofPattern F cmd).pattern F = cmd) ∧
  IsEmpty (NumFormat NUM) ∧ IsEmpty (NumFormat ℝ)

/-- The pins of a block with a finite `NUM` (rules R33, R48 to R50, R53, R54): the bits of a command word run that command; an
opcode outside the table raises IllegalCommand whatever the `10 + NUM_W` bits; the two waveform commands, V_NOTE_OFF and
L_STEP do not depend on the `arg` field's bits; and the patterns on the response port and on the status ports are those of the
sample and of the registers. That they are read back as those values is an inference of the MODEL (log entry 15). -/
def Obligations.FinitePortsRunTheBlock : Prop :=
  ∀ (N : Type) (F : NumFormat N) (A : Arith N) (wrap : PhaseWrap) (r : Regs N),
    (∀ w : CmdWord N, r.acceptBits F A wrap (w.pattern F) = r.accept A wrap w) ∧
    (∀ cmd : BitVec (F.width + 10),
      cmd.extractLsb' 0 8 ∉
          ([0x01, 0x02, 0x03, 0x04, 0x05, 0x06, 0x07, 0x08, 0x09, 0x0A, 0x81, 0x82, 0x87, 0x8A] : List Op) →
        r.acceptBits F A wrap cmd = ⟨⟨r.v, r.l, true⟩, none⟩) ∧
    (∀ cmd cmd' : BitVec (F.width + 10), cmd.extractLsb' 0 10 = cmd'.extractLsb' 0 10 →
      cmd.extractLsb' 0 8 ∈ ([0x02, 0x09, 0x82, 0x8A] : List Op) →
        r.acceptBits F A wrap cmd = r.acceptBits F A wrap cmd') ∧
    (∀ y : Reply N, (y.rspBits F = none ↔ y.rsp = none) ∧ (y.rspBits F).map F.value = y.rsp) ∧
    (r.statusBits F).st_v_stage = r.v.stage.code ∧ (r.statusBits F).st_v_level = F.bits r.v.level ∧
    (r.statusBits F).map F.value = r.status
end

