-- ==== Sys2Proof/Laws/State.lean ====
section
/-! SUPPORT. What each update of the registers and of the machine's state leaves in each field, each true by unfolding. -/

namespace Sys2Proof.Machine

@[simp] theorem Regs.setV_v {N : Type} (r : Regs N) (x : Voice N) : (r.setV x).v = x := rfl
@[simp] theorem Regs.setV_l {N : Type} (r : Regs N) (x : Voice N) : (r.setV x).l = r.l := rfl
@[simp] theorem Regs.setV_illegal {N : Type} (r : Regs N) (x : Voice N) : (r.setV x).illegal = r.illegal := rfl
@[simp] theorem Regs.setL_v {N : Type} (r : Regs N) (x : Lfo N) : (r.setL x).v = r.v := rfl
@[simp] theorem Regs.setL_l {N : Type} (r : Regs N) (x : Lfo N) : (r.setL x).l = x := rfl
@[simp] theorem Regs.setL_illegal {N : Type} (r : Regs N) (x : Lfo N) : (r.setL x).illegal = r.illegal := rfl

@[simp] theorem Regs.setV_setV {N : Type} (r : Regs N) (x y : Voice N) : (r.setV x).setV y = r.setV y := rfl
@[simp] theorem Regs.setV_self {N : Type} (r : Regs N) : r.setV r.v = r := rfl
@[simp] theorem Regs.setL_setL {N : Type} (r : Regs N) (x y : Lfo N) : (r.setL x).setL y = r.setL y := rfl
@[simp] theorem Regs.setL_self {N : Type} (r : Regs N) : r.setL r.l = r := rfl
theorem Regs.setV_setL {N : Type} (r : Regs N) (x : Voice N) (y : Lfo N) : (r.setV x).setL y = (r.setL y).setV x := rfl

@[simp] theorem Regs.complete_regs {N : Type} (r : Regs N) : r.complete.regs = r := rfl
@[simp] theorem Regs.complete_rsp {N : Type} (r : Regs N) : r.complete.rsp = none := rfl
@[simp] theorem Regs.respond_regs {N : Type} (r : Regs N) (x : N) : (r.respond x).regs = r := rfl
@[simp] theorem Regs.respond_rsp {N : Type} (r : Regs N) (x : N) : (r.respond x).rsp = some x := rfl

/-- Everything `raise IllegalCommand` leaves (rule R104). -/
@[simp] theorem Regs.raiseIllegal_eq {N : Type} (r : Regs N) : r.raiseIllegal = ⟨⟨r.v, r.l, true⟩, none⟩ := rfl

/-- An event always answers a next state, which keeps the parameters and what the host has pending. -/
@[simp] theorem State.answer_eq (s : State) (y : Reply NUM) :
    s.answer y = .next ⟨y.regs, s.cfg, y.rsp, s.input⟩ := rfl

@[simp] theorem State.resetWith_toRegs (c : Params NUM) : (State.resetWith c).toRegs = Regs.reset 0 c.reset := rfl
@[simp] theorem State.resetWith_cfg (c : Params NUM) : (State.resetWith c).cfg = c := rfl
@[simp] theorem State.resetWith_rsp (c : Params NUM) : (State.resetWith c).rsp = none := rfl
@[simp] theorem State.resetWith_input (c : Params NUM) : (State.resetWith c).input = [] := rfl

end Sys2Proof.Machine
end

