-- ==== Sys2Proof/Laws/Ops.lean ====
section
/-! SUPPORT. One lemma for each shared operation: division by a divisor that is not zero, the two exact domains, and, in any
exact domain, the phase step, the clamps and the waveforms as formulas; the waveform tags. -/

namespace Sys2Proof

@[simp] theorem Wave.ofTag_tag (w : Wave) : Wave.ofTag w.tag = some w := by cases w <;> rfl

/-- The reserved tag is the only one that names no waveform (rule R24). -/
theorem Wave.ofTag_eq_none_iff (tag : Tag) : Wave.ofTag tag = none ↔ tag = 3 := by
  revert tag; decide

/-- A tag that names a waveform is that waveform's tag. -/
theorem Wave.tag_of_ofTag {tag : Tag} {w : Wave} (h : Wave.ofTag tag = some w) : w.tag = tag := by
  revert tag w; decide

namespace Machine

/-- Where the divisor is not zero the quotient is the exact one, whatever the free value. -/
theorem divide_of_ne (x : NUM) {y : NUM} (h : y ≠ 0) : divide x y = x / y := if_neg h

/-- The rational machine's sine keeps to `[-1,1]` (rule R73). -/
theorem sin2pi_range (p : NUM) : -1 ≤ sin2pi p ∧ sin2pi p ≤ 1 := by
  unfold sin2pi; dsimp only; split_ifs <;> norm_num

/-- It has period 1 (rule R73). -/
theorem sin2pi_period (p : NUM) (k : ℤ) : sin2pi (p + k) = sin2pi p := by
  have h : (p + k) - ((p + k).floor : NUM) = p - (p.floor : NUM) := by
    have := Int.fract_add_intCast p k
    exact this
  unfold sin2pi; rw [h]

/-- The phases at which the sine is a rational number, and at which the rational machine's sine is that number (rule R73;
T20). -/
theorem sineExactAt_of_twelfths (p : NUM)
    (h : Int.fract p ∈ ([0, 1 / 12, 1 / 4, 5 / 12, 1 / 2, 7 / 12, 3 / 4, 11 / 12] : List NUM)) : SineExactAt p := by
  have period : Real.sin (2 * Real.pi * (p : ℝ)) = Real.sin (2 * Real.pi * ((Int.fract p : NUM) : ℝ)) := by
    have e : 2 * Real.pi * ((Int.fract p : NUM) : ℝ) = 2 * Real.pi * (p : ℝ) - (⌊p⌋ : ℤ) * (2 * Real.pi) := by
      unfold Int.fract; push_cast; ring
    rw [e, Real.sin_sub_int_mul_two_pi]
  have six : Real.sin (Real.pi / 6) = 1 / 2 := Real.sin_pi_div_six
  unfold SineExactAt
  rw [period]
  have hq : sin2pi p = sin2pi (Int.fract p) := by
    have := sin2pi_period (Int.fract p) ⌊p⌋
    rw [Int.fract_add_floor] at this; exact this
  rw [hq]
  generalize Int.fract p = q at h
  simp only [List.mem_cons, List.not_mem_nil, or_false] at h
  rcases h with rfl | rfl | rfl | rfl | rfl | rfl | rfl | rfl
  · rw [show sin2pi 0 = 0 by decide +kernel]; simp
  · rw [show sin2pi (1 / 12) = 1 / 2 by decide +kernel,
      show 2 * Real.pi * ((1 / 12 : NUM) : ℝ) = Real.pi / 6 by push_cast; ring, six]; norm_num
  · rw [show sin2pi (1 / 4) = 1 by decide +kernel,
      show 2 * Real.pi * ((1 / 4 : NUM) : ℝ) = Real.pi / 2 by push_cast; ring]; simp
  · rw [show sin2pi (5 / 12) = 1 / 2 by decide +kernel,
      show 2 * Real.pi * ((5 / 12 : NUM) : ℝ) = Real.pi - Real.pi / 6 by push_cast; ring, Real.sin_pi_sub, six]; norm_num
  · rw [show sin2pi (1 / 2) = 0 by decide +kernel,
      show 2 * Real.pi * ((1 / 2 : NUM) : ℝ) = Real.pi by push_cast; ring]; simp
  · rw [show sin2pi (7 / 12) = -1 / 2 by decide +kernel,
      show 2 * Real.pi * ((7 / 12 : NUM) : ℝ) = Real.pi / 6 + Real.pi by push_cast; ring, Real.sin_add_pi, six]; norm_num
  · rw [show sin2pi (3 / 4) = -1 by decide +kernel,
      show 2 * Real.pi * ((3 / 4 : NUM) : ℝ) = Real.pi / 2 + Real.pi by push_cast; ring, Real.sin_add_pi]; simp
  · rw [show sin2pi (11 / 12) = -1 / 2 by decide +kernel,
      show 2 * Real.pi * ((11 / 12 : NUM) : ℝ) = 2 * Real.pi - Real.pi / 6 by push_cast; ring,
      Real.sin_two_pi_sub, six]; norm_num

end Machine

/-! The two exact domains (rules R6, R11). -/

/-- The rationals are an exact domain, and their sine has the properties of rule R73. -/
theorem Arith.rat_exact : Arith.rat.Exact where
  zero := rfl
  one := rfl
  two := rfl
  half := rfl
  fifth := rfl
  negOne := rfl
  add _ _ := rfl
  sub _ _ := rfl
  mul _ _ := rfl
  div x _ h := Machine.divide_of_ne x h
  floor _ := rfl
  lt _ _ := decide_eq_true_iff
  le _ _ := decide_eq_true_iff
  eq _ _ := decide_eq_true_iff
  sine_range := Machine.sin2pi_range
  sine_quarters := by decide +kernel
  sine_period := Machine.sin2pi_period

/-- The reals with the real sine are an exact domain. -/
theorem Arith.real_exact : Arith.real.Exact where
  zero := rfl
  one := rfl
  two := rfl
  half := rfl
  fifth := rfl
  negOne := rfl
  add _ _ := rfl
  sub _ _ := rfl
  mul _ _ := rfl
  div _ _ h := if_neg h
  floor _ := rfl
  lt _ _ := by simp [Arith.real]
  le _ _ := by simp [Arith.real]
  eq _ _ := by simp [Arith.real]
  sine_range _ := ⟨Real.neg_one_le_sin _, Real.sin_le_one _⟩
  sine_quarters := by
    refine ⟨by simp [Arith.real], ?_, ?_, ?_⟩ <;> unfold Arith.real <;> dsimp only
    · rw [show 2 * Real.pi * (1 / 4) = Real.pi / 2 by ring, Real.sin_pi_div_two]
    · rw [show 2 * Real.pi * (1 / 2) = Real.pi by ring, Real.sin_pi]
    · rw [show 2 * Real.pi * (3 / 4) = Real.pi / 2 + Real.pi by ring, Real.sin_add_pi, Real.sin_pi_div_two]
  sine_period p k := by
    unfold Arith.real; dsimp only
    rw [show 2 * Real.pi * (p + k) = 2 * Real.pi * p + k * (2 * Real.pi) by ring, Real.sin_add_int_mul_two_pi]

@[simp] theorem Arith.real_sin2pi (p : ℝ) : Arith.real.sin2pi p = Real.sin (2 * Real.pi * p) := rfl

/-! The shared operations in any exact domain. -/

section
variable {N : Type} [Field N] [LinearOrder N] [FloorRing N] {A : Arith N}

/-- The phase step is rule R74's formula. -/
theorem Arith.Exact.advance_eq (h : A.Exact) (wrap : PhaseWrap) (p inc : N) :
    Machine.advance A wrap p inc = Machine.wrapped wrap (p + inc) := by
  cases wrap <;> simp [Machine.advance, Machine.wrapped, h.add, h.sub, h.one, h.le, h.floor]

theorem Arith.Exact.clampLo_eq (h : A.Exact) (v lo : N) : Machine.clampLo A v lo = if v < lo then lo else v := by
  simp [Machine.clampLo, h.lt]

theorem Arith.Exact.clamp01_eq (h : A.Exact) (v : N) :
    Machine.clamp01 A v = if v < 0 then 0 else if v > 1 then 1 else v := by
  simp [Machine.clamp01, h.lt, h.zero, h.one]

theorem Arith.Exact.wave_square (h : A.Exact) (p : N) :
    Machine.waveValue A .square p = if p < 1 / 2 then 1 else -1 := by
  simp [Machine.waveValue, h.lt, h.half, h.one, h.negOne]

theorem Arith.Exact.wave_saw (h : A.Exact) (p : N) : Machine.waveValue A .saw p = 2 * p - 1 := by
  simp [Machine.waveValue, h.sub, h.mul, h.two, h.one]

end

namespace Machine

/-- In the reals the waveform generator is rule R12's, the exact sine included. -/
theorem waveValue_real (w : Wave) (p : ℝ) : waveValue Arith.real w p = waveReal w p := by
  cases w with
  | sine => rfl
  | square => exact Arith.real_exact.wave_square p
  | saw => exact Arith.real_exact.wave_saw p

/-- The literal wrap (rule R74). -/
theorem wrapped_literal (p : NUM) : wrapped .literal p = if p ≥ 1 then p - 1 else p := rfl

/-- The modular wrap (U3). -/
theorem wrapped_modular (p : NUM) : wrapped .modular p = Int.fract p := rfl

end Machine

end Sys2Proof
end

