-- ==== Sys2Proof/Laws/Exec.lean ====
section
/-! SUPPORT. What the envelope and the step commands leave alone, the next state of every command, and how a command sequence
unfolds; a later proof cites these and does not unfold the meanings. -/

namespace Sys2Proof.Machine

section
variable {N : Type} (A : Arith N)

/-- The envelope step writes the level and the stage, nothing else (rule R72). -/
theorem envelope_frame (v : Voice N) :
    envelope A v = { v with level := (envelope A v).level, stage := (envelope A v).stage } := by
  unfold envelope envAttack envDecay envSustain envRelease envOff
  cases h : v.stage <;> dsimp only <;> (try split_ifs) <;> simp only [← h]

/-- `V_STEP` writes the phase, the level and the stage, nothing else (rule R72). -/
theorem Voice.tick_frame (pw : PhaseWrap) (f : N) (v : Voice N) :
    v.tick A pw f = { v with phase := advance A pw v.phase (A.div f v.sr), level := (v.tick A pw f).level,
                             stage := (v.tick A pw f).stage } := by
  unfold Voice.tick; rw [envelope_frame]

/-- `V_NOTE_OFF` writes the level, the release step and the stage, nothing else (rules R68, R69). -/
theorem Voice.noteOff_frame (v : Voice N) :
    v.noteOff A = { v with level := (v.noteOff A).level, rstep := (v.noteOff A).rstep, stage := (v.noteOff A).stage } := by
  unfold Voice.noteOff; split <;> rfl

/-! The envelope step, stage by stage (rules R77 to R81). -/

theorem envelope_attack {v : Voice N} (h : v.stage = .attack) : envelope A v = envAttack A v := by unfold envelope; rw [h]
theorem envelope_decay {v : Voice N} (h : v.stage = .decay) : envelope A v = envDecay A v := by unfold envelope; rw [h]
theorem envelope_sustain {v : Voice N} (h : v.stage = .sustain) : envelope A v = envSustain v := by unfold envelope; rw [h]
theorem envelope_release {v : Voice N} (h : v.stage = .release) : envelope A v = envRelease A v := by unfold envelope; rw [h]
theorem envelope_off {v : Voice N} (h : v.stage = .off) : envelope A v = envOff A v := by unfold envelope; rw [h]

end

/-! The next state of each command. -/

theorem exec_vSetSr (a : NUM) (s : State) : exec (.vSetSr a) s = s.answer (s.toRegs.vSetSr Arith.rat a) := rfl
theorem exec_vSetWave (t : Tag) (s : State) : exec (.vSetWave t) s = s.answer (s.toRegs.vSetWave t) := rfl
theorem exec_vSetAttack (a : NUM) (s : State) : exec (.vSetAttack a) s = s.answer (s.toRegs.vSetAttack Arith.rat a) := rfl
theorem exec_vSetDecay (a : NUM) (s : State) : exec (.vSetDecay a) s = s.answer (s.toRegs.vSetDecay Arith.rat a) := rfl
theorem exec_vSetSustain (a : NUM) (s : State) : exec (.vSetSustain a) s = s.answer (s.toRegs.vSetSustain Arith.rat a) := rfl
theorem exec_vSetRelease (a : NUM) (s : State) : exec (.vSetRelease a) s = s.answer (s.toRegs.vSetRelease Arith.rat a) := rfl
theorem exec_vSetFreq (a : NUM) (s : State) : exec (.vSetFreq a) s = s.answer (s.toRegs.vSetFreq a) := rfl
theorem exec_vNoteOn (a : NUM) (s : State) : exec (.vNoteOn a) s = s.answer (s.toRegs.vNoteOn a) := rfl
theorem exec_vNoteOff (s : State) : exec .vNoteOff s = s.answer (s.toRegs.vNoteOff Arith.rat) := rfl
theorem exec_vStep (f : NUM) (s : State) : exec (.vStep f) s = s.answer (s.toRegs.vStep Arith.rat s.cfg.wrap f) := rfl
theorem exec_lSetSr (a : NUM) (s : State) : exec (.lSetSr a) s = s.answer (s.toRegs.lSetSr Arith.rat a) := rfl
theorem exec_lSetWave (t : Tag) (s : State) : exec (.lSetWave t) s = s.answer (s.toRegs.lSetWave t) := rfl
theorem exec_lSetFreq (a : NUM) (s : State) : exec (.lSetFreq a) s = s.answer (s.toRegs.lSetFreq a) := rfl
theorem exec_lStep (s : State) : exec .lStep s = s.answer (s.toRegs.lStep Arith.rat s.cfg.wrap) := rfl

/-- A step is the next event, on the state with the later events pending. -/
theorem step_cons (s : State) (e : PortEvent NUM) (es : List (PortEvent NUM)) (h : s.input = e :: es) :
    step s = onEvent e { s with input := es } := by unfold step; rw [h]

theorem step_nil (s : State) (h : s.input = []) : step s = .next { s with rsp := none } := by
  unfold step; rw [h]; simp [idle, h]

theorem runCommands_nil (s : State) : runCommands [] s = .next (s, []) := rfl

/-- A command sequence is its first command and then the others (rule R44). -/
theorem runCommands_cons {i : Instr} {is : List Instr} {s s' t : State} {out : List NUM}
    (h : exec i s = .next s') (hs : runCommands is s' = .next (t, out)) :
    runCommands (i :: is) s = .next (t, s'.rsp.toList ++ out) := by
  unfold runCommands; rw [h]; dsimp only; rw [hs]

end Sys2Proof.Machine
end

