-- ==== Sys2Proof/Laws/FinitePorts.lean ====
section
/-! SUPPORT. The bits of a command word under a finite `NUM`, field by field; what is driven on a port is read back. -/

namespace Sys2Proof

section
variable {N : Type} (F : NumFormat N) (w : CmdWord N)

/-- A value's pattern is read back as that value (log entry 15). -/
@[simp] theorem NumFormat.read_bits (x : N) : F.value (F.bits x) = x := F.value_bits x

/-- `cmd[9:0]` (rules R49, R56). -/
@[simp] theorem CmdWord.pattern_lo10 : (w.pattern F).extractLsb' 0 10 = w.lo10 := by
  unfold CmdWord.pattern; ext i h
  simp [BitVec.getLsbD_append, h]

/-- The ten bits of `cmd[9:0]`, one by one. -/
theorem CmdWord.lo10_getLsbD (i : Nat) :
    w.lo10.getLsbD i = if i < 8 then w.op.getLsbD i else w.wave.getLsbD (i - 8) := by
  unfold CmdWord.lo10; rw [BitVec.getLsbD_append]

/-- `cmd[7:0]`. -/
@[simp] theorem CmdWord.pattern_op : (w.pattern F).extractLsb' 0 8 = w.op := by
  unfold CmdWord.pattern
  apply BitVec.eq_of_getLsbD_eq; intro i h
  rw [BitVec.getLsbD_extractLsb', BitVec.getLsbD_append, CmdWord.lo10_getLsbD]
  simp [h, show i < 10 by omega]

/-- `cmd[9:8]`. -/
@[simp] theorem CmdWord.pattern_wave : (w.pattern F).extractLsb' 8 2 = w.wave := by
  unfold CmdWord.pattern
  apply BitVec.eq_of_getLsbD_eq; intro i h
  rw [BitVec.getLsbD_extractLsb', BitVec.getLsbD_append, CmdWord.lo10_getLsbD]
  simp [h, show 8 + i < 10 by omega]

/-- `cmd[10+NUM_W-1:10]`. -/
@[simp] theorem CmdWord.pattern_arg : (w.pattern F).extractLsb' 10 F.width = F.bits w.arg := by
  unfold CmdWord.pattern; ext i h
  simp [BitVec.getLsbD_append, h]

/-- A command word on the wires is read as itself. -/
@[simp] theorem CmdWord.ofPattern_pattern : CmdWord.ofPattern F (w.pattern F) = w := by
  simp [CmdWord.ofPattern]

/-- The word on the wires is the layout of rule R49 with the operand's own pattern in the `arg` field. -/
theorem CmdWord.pattern_toNat : (w.pattern F).toNat = w.toBits (F.bits w.arg).toNat := by
  have h1 := w.op.isLt
  have h2 := w.wave.isLt
  have lo : w.lo10.toNat = w.op.toNat + 256 * w.wave.toNat := by
    unfold CmdWord.lo10
    rw [BitVec.toNat_append, ← Nat.shiftLeft_add_eq_or_of_lt (by omega), Nat.shiftLeft_eq]; omega
  unfold CmdWord.pattern CmdWord.toBits
  rw [BitVec.toNat_append, ← Nat.shiftLeft_add_eq_or_of_lt (by omega), Nat.shiftLeft_eq, lo]; omega

end

namespace Machine

variable {N : Type} (F : NumFormat N)

@[simp] theorem Regs.acceptBits_pattern (A : Arith N) (wrap : PhaseWrap) (w : CmdWord N) (r : Regs N) :
    r.acceptBits F A wrap (w.pattern F) = r.accept A wrap w := by simp [Regs.acceptBits]

@[simp] theorem Reply.rspBits_value (y : Reply N) : (y.rspBits F).map F.value = y.rsp := by
  cases h : y.rsp <;> simp [Reply.rspBits, h]

@[simp] theorem Regs.statusBits_value (r : Regs N) : (r.statusBits F).map F.value = r.status := by
  simp [Regs.statusBits, StatusPorts.map, Regs.status]

end Machine

end Sys2Proof
end

