-- ==== Sys2Proof/Laws/PerInstr.lean ====
section
/-! SUPPORT. The statements made per instruction of the set: the encoder fills every field its command does not use with 0
(rules R51, R53, R56). -/

namespace Sys2Proof.Laws.UnusedFieldsZero

/-- Rule R56: "The assembler fills unused fields with 0." -/
def Statement (i : Instr) : Prop :=
  (i.usesWave = false → (encode i).wave = 0) ∧ (i.usesArg = false → (encode i).arg = 0)

theorem vSetSr (a : NUM) : Statement (.vSetSr a) := ⟨fun _ => rfl, nofun⟩
theorem vSetWave (t : Tag) : Statement (.vSetWave t) := ⟨nofun, fun _ => rfl⟩
theorem vSetAttack (a : NUM) : Statement (.vSetAttack a) := ⟨fun _ => rfl, nofun⟩
theorem vSetDecay (a : NUM) : Statement (.vSetDecay a) := ⟨fun _ => rfl, nofun⟩
theorem vSetSustain (a : NUM) : Statement (.vSetSustain a) := ⟨fun _ => rfl, nofun⟩
theorem vSetRelease (a : NUM) : Statement (.vSetRelease a) := ⟨fun _ => rfl, nofun⟩
theorem vSetFreq (a : NUM) : Statement (.vSetFreq a) := ⟨fun _ => rfl, nofun⟩
theorem vNoteOn (a : NUM) : Statement (.vNoteOn a) := ⟨fun _ => rfl, nofun⟩
theorem vNoteOff : Statement .vNoteOff := ⟨fun _ => rfl, fun _ => rfl⟩
theorem vStep (a : NUM) : Statement (.vStep a) := ⟨fun _ => rfl, nofun⟩
theorem lSetSr (a : NUM) : Statement (.lSetSr a) := ⟨fun _ => rfl, nofun⟩
theorem lSetWave (t : Tag) : Statement (.lSetWave t) := ⟨nofun, fun _ => rfl⟩
theorem lSetFreq (a : NUM) : Statement (.lSetFreq a) := ⟨fun _ => rfl, nofun⟩
theorem lStep : Statement .lStep := ⟨fun _ => rfl, fun _ => rfl⟩

end Sys2Proof.Laws.UnusedFieldsZero
end

