-- ==== Sys2Proof/Tests/Slice0.lean ====
section
/-! SUPPORT. The model's own tests (expected values from the spec's test vectors T1 to T51 and programs P1 to P6, file
95_test_vectors.md, or counted by hand from the rule named). -/

-- One declaration at a time: it bounds the number of threads the small kernel checks take.
set_option Elab.async false

namespace Sys2Proof.Tests

open Sys2Proof Sys2Proof.Machine

/-- A state whose Voice has the configuration `cfg(sr, wave, a, d, su, r)` and the registers given, as the vectors write it. -/
def voiceState (sr : NUM) (wave : Wave) (a d su r : NUM) (phase level : NUM) (stage : Stage) (rstep freq : NUM) : State :=
  { State.reset with v := ⟨phase, level, rstep, freq, stage, sr, wave, a, d, su, r⟩ }

/-- A state whose LFO is `L(phase, sr, wave, freq)`. -/
def lfoState (phase sr : NUM) (wave : Wave) (freq : NUM) : State :=
  { State.reset with l := ⟨phase, freq, sr, wave⟩ }

/-- What `f` reads of an outcome's next state. -/
def look {α : Type} (f : State → α) (o : Host.Outcome State Fault Refusal) : Option α :=
  match o with
  | .next s => some (f s)
  | .fault _ => none
  | .refused _ => none

/-- The Voice's phase, level and stage, and the response. -/
def sample (s : State) : NUM × NUM × Stage × Option NUM := (s.v.phase, s.v.level, s.v.stage, s.rsp)

/-! ## WellFormed refuses the ill-formed terms (U5) and no other (rule R103) -/

theorem test_wf_refuses_voice_tag3 : (Instr.vSetWave 3).wf = false := by decide
theorem test_wf_refuses_lfo_tag3 : (Instr.lSetWave 3).wf = false := by decide
theorem test_wf_admits_tags : (Instr.vSetWave 2).wf = true ∧ (Instr.lSetWave 0).wf = true ∧ (Instr.vSetSr (-5)).wf = true := by
  decide

/-! ## Decoding: words written out bit by bit from rule R51 (column lo10 of the vectors), every constructor -/

theorem test_decode_setters :
    decode (.ofLo10 0b0000000001 48000) = .ok (.vSetSr 48000) ∧ decode (.ofLo10 0b1000000010 0) = .ok (.vSetWave 2) ∧
    decode (.ofLo10 0b0000000011 (-3)) = .ok (.vSetAttack (-3)) ∧
    decode (.ofLo10 0b0000000100 (1 / 10)) = .ok (.vSetDecay (1 / 10)) ∧
    decode (.ofLo10 0b0000000101 (3 / 2)) = .ok (.vSetSustain (3 / 2)) ∧
    decode (.ofLo10 0b0000000110 (-1)) = .ok (.vSetRelease (-1)) ∧
    decode (.ofLo10 0b0000000111 (-440)) = .ok (.vSetFreq (-440)) := by decide +kernel

theorem test_decode_note_and_step :
    decode (.ofLo10 0b0000001000 440) = .ok (.vNoteOn 440) ∧ decode (.ofLo10 0b1000001001 99) = .ok .vNoteOff ∧
    decode (.ofLo10 0b1100001010 1) = .ok (.vStep 1) := by decide +kernel

theorem test_decode_lfo :
    decode (.ofLo10 0b0010000001 0) = .ok (.lSetSr 0) ∧ decode (.ofLo10 0b0110000010 0) = .ok (.lSetWave 1) ∧
    decode (.ofLo10 0b0010000111 (-1)) = .ok (.lSetFreq (-1)) ∧ decode (.ofLo10 0b0110001010 5) = .ok .lStep := by
  decide +kernel

/-- T42 to T45: the unassigned opcodes are rejected by name. -/
theorem test_decode_illegal :
    decode (.ofLo10 0x000 0) = .illegalOp 0x00 ∧ decode (.ofLo10 0x00B 0) = .illegalOp 0x0B ∧
    decode (.ofLo10 0x083 1) = .illegalOp 0x83 ∧ decode (.ofLo10 0x3FF 7) = .illegalOp 0xFF := by decide +kernel

/-- The bits of an opcode-table row: `ww10000010` with w = 10, and the operand bits above (7 at bit 10). -/
theorem test_decode_table_word :
    decodeTableWord 16 0x282 = some (.lSetWave 2) ∧ decodeTableWord 16 0x00A = some (.vStep 0) ∧
    decodeTableWord 16 (7 * 1024 + 0x301) = some (.vSetSr 7) ∧ decodeTableWord 16 0x100 = none := by decide +kernel

/-- Rule R56: the assembler's triple for `V_SET_WAVE SQUARE` is `0x02 1 0`, for `V_STEP 1/4` it is `0x0A 0 1/4`. -/
theorem test_assemble :
    (AsmLine.mk "V_SET_WAVE" (.wave .square)).assemble = some ⟨0x02, 1, 0⟩ ∧
    (AsmLine.mk "V_STEP" (.num (1 / 4))).assemble = some ⟨0x0A, 0, 1 / 4⟩ ∧
    (AsmLine.mk "V_NOTE_OFF" (.num 1)).assemble = none := by decide +kernel

/-! ## The setters (T1 to T12, T34 to T36) -/

theorem test_vSetSr_floor : look (fun s => s.v.sr) (exec (.vSetSr (1 / 2)) State.reset) = some 1 := by decide +kernel
theorem test_vSetSr_keeps : look (fun s => s.v.sr) (exec (.vSetSr 48000) State.reset) = some 48000 := by decide +kernel
theorem test_vSetWave_saw : look (fun s => (s.v.wave, s.illegal)) (exec (.vSetWave 2) State.reset) = some (.saw, false) := by
  decide +kernel
theorem test_vSetWave_tag3 :
    look (fun s => (s.v.wave, s.illegal, s.rsp)) (exec (.vSetWave 3) State.reset) = some (.sine, true, none) := by decide +kernel
theorem test_vSetAttack_negative : look (fun s => s.v.attack) (exec (.vSetAttack (-3)) State.reset) = some 0 := by decide +kernel
theorem test_vSetDecay : look (fun s => s.v.decay) (exec (.vSetDecay (1 / 10)) State.reset) = some (1 / 10) := by decide +kernel
theorem test_vSetSustain_above : look (fun s => s.v.sustain) (exec (.vSetSustain (3 / 2)) State.reset) = some 1 := by
  decide +kernel
theorem test_vSetSustain_below : look (fun s => s.v.sustain) (exec (.vSetSustain (-1 / 4)) State.reset) = some 0 := by
  decide +kernel
theorem test_vSetRelease_negative : look (fun s => s.v.release) (exec (.vSetRelease (-1)) State.reset) = some 0 := by
  decide +kernel
theorem test_vSetFreq_unclamped :
    look (fun s => (s.v.freq, s.v.stage)) (exec (.vSetFreq (-440)) State.reset) = some (-440, .off) := by decide +kernel
theorem test_lSetSr_floor : look (fun s => (s.l.sr, s.v.sr)) (exec (.lSetSr 0) (voiceState 4 .saw 0 0 0 0 0 0 .off 0 0)) =
    some (1, 4) := by decide +kernel
theorem test_lSetWave_square : look (fun s => (s.l.wave, s.v.wave)) (exec (.lSetWave 1) State.reset) =
    some (.square, .sine) := by decide +kernel
theorem test_lSetWave_tag3 : look (fun s => (s.l.wave, s.illegal)) (exec (.lSetWave 3) State.reset) = some (.sine, true) := by
  decide +kernel
theorem test_lSetFreq_negative : look (fun s => s.l.freq) (exec (.lSetFreq (-1)) State.reset) = some (-1) := by decide +kernel

/-! ## The note commands (T14 to T16) -/

/-- T14. -/
theorem test_vNoteOn_keeps_level_and_step :
    look (fun s => (s.v.level, s.v.stage, s.v.rstep, s.v.freq, s.v.phase))
      (exec (.vNoteOn 2) (voiceState 4 .square 1 1 (1 / 2) 1 (1 / 4) (3 / 8) .release (1 / 8) 1)) =
    some (3 / 8, .attack, 1 / 8, 2, 1 / 4) := by decide +kernel

/-- T15. -/
theorem test_vNoteOff_release0 :
    look (fun s => (s.v.level, s.v.stage, s.v.rstep))
      (exec .vNoteOff (voiceState 4 .square 0 0 (3 / 4) 0 (3 / 4) (3 / 4) .sustain (1 / 7) 1)) = some (0, .off, 1 / 7) := by
  decide +kernel

/-- T16. -/
theorem test_vNoteOff_release :
    look (fun s => (s.v.level, s.v.stage, s.v.rstep))
      (exec .vNoteOff (voiceState 48000 .square 0 0 (1 / 2) (1 / 5) 0 (1 / 2) .sustain 0 100)) =
    some (1 / 2, .release, 1 / 19200) := by decide +kernel

/-! ## V_STEP, one sample in each stage, and the wrap (T17, T19, T21, T23, T24, T26, T29) -/

/-- T17, first sample: Attack, the level after the step in the output. -/
theorem test_vStep_attack :
    look sample (exec (.vStep 1) (voiceState 4 .square (1 / 2) 1 (1 / 2) 1 0 0 .attack 0 0)) =
    some (1 / 4, 1 / 2, .attack, some (1 / 10)) := by decide +kernel

/-- T17, third sample: Decay, the square at phase 1/2 is -1. -/
theorem test_vStep_decay :
    look sample (exec (.vStep 1) (voiceState 4 .square (1 / 2) 1 (1 / 2) 1 (1 / 2) 1 .decay 0 0)) =
    some (3 / 4, 7 / 8, .decay, some (-7 / 40)) := by decide +kernel

/-- T23: a sustain level raised in Decay is jumped up to. -/
theorem test_vStep_decay_jumps_up :
    look sample (exec (.vStep 0) (voiceState 4 .square 0 1 (9 / 10) 0 0 (3 / 4) .decay 0 0)) =
    some (0, 9 / 10, .sustain, some (9 / 50)) := by decide +kernel

/-- T24: the step that lands on 0 goes Off. -/
theorem test_vStep_release_ends :
    look sample (exec (.vStep 0) (voiceState 4 .square 0 0 1 1 0 (1 / 8) .release (1 / 8) 0)) =
    some (0, 0, .off, some 0) := by decide +kernel

/-- T29, LITERAL: a negative increment is not wrapped back. -/
theorem test_vStep_negative_increment :
    look sample (exec (.vStep (-1)) (voiceState 4 .saw 0 0 1 0 (-1 / 4) 1 .sustain 0 0)) =
    some (-1 / 2, 1, .sustain, some (-3 / 10)) := by decide +kernel

/-- T26: an increment of exactly 1 wraps to 0. -/
theorem test_vStep_wraps_at_one :
    look sample (exec (.vStep 4) (voiceState 4 .saw 0 0 1 0 0 0 .attack 0 0)) =
    some (0, 1, .decay, some (-1 / 5)) := by decide +kernel

/-- T20, second sample: `sin(2*pi/12) = 1/2`, over 5. -/
theorem test_vStep_sine :
    look sample (exec (.vStep 1) (voiceState 12 .sine 0 0 1 0 (1 / 12) 1 .decay 0 0)) =
    some (1 / 6, 1, .sustain, some (1 / 10)) := by decide +kernel

/-- At an irrational sine the sample is the sine of the domain: over the reals it is `sin(2*pi*(1/8)) * 1 * 1/5` (rules R72, R82). -/
theorem test_vStep_real_sine (v : Voice ℝ) (h : v.wave = .sine) (hp : v.phase = 1 / 8) (ho : v.stage = .sustain) (hs : v.sustain = 1) :
    v.output Arith.real .literal 0 = Real.sin (2 * Real.pi * (1 / 8)) * 1 * (1 / 5) := by
  unfold Voice.output Voice.tick envelope envSustain; rw [ho, h, hp]; dsimp only; rw [hs]; rfl

/-- P6 under `PHASE_WRAP = MODULAR`, second `L_STEP`: phase 3/4 gives 1/2. -/
theorem test_lStep_modular :
    look (fun s => (s.l.phase, s.rsp))
      (exec .lStep { lfoState (3 / 4) 4 .saw (-1) with cfg := { Config.params with wrap := .modular } }) =
    some (1 / 2, some (1 / 2)) := by decide +kernel

/-! ## L_STEP (T38, T40) -/

/-- T38, second step: phase 3/8 gives 1, then 3/4. -/
theorem test_lStep_square : look (fun s => (s.l.phase, s.rsp)) (exec .lStep (lfoState (3 / 8) 8 .square 3)) =
    some (3 / 4, some 1) := by decide +kernel

/-- T40, second step: a negative frequency, SAW. -/
theorem test_lStep_negative : look (fun s => (s.l.phase, s.rsp)) (exec .lStep (lfoState (-1 / 4) 4 .saw (-1))) =
    some (-1 / 2, some (-3 / 2)) := by decide +kernel

/-! ## Events at the pins, the status ports, the host contract -/

/-- T49: an illegal word sets the flag; the next command is still pending. -/
theorem test_step_illegal :
    look (fun s => (s.illegal, s.v, s.input.length))
      (step { State.reset with input := [.command ⟨0x02, 3, 0⟩, .command ⟨0x02, 1, 0⟩] }) =
    some (true, State.reset.v, 1) := by decide +kernel

/-- The first command after reset is the one that is presented. -/
theorem test_step_withFetchWord :
    look (fun s => (s.v.stage, s.input)) (step (State.reset.withFetchWord 16 0x008)) = some (.attack, []) := by decide +kernel

/-- Reset clears the flag. -/
theorem test_step_reset :
    look (fun s => s) (step { voiceState 4 .saw 1 1 1 1 1 1 .decay 1 1 with illegal := true, input := [.rst] }) =
    some State.reset := by decide +kernel

/-- Rule R37: stage Off reads 4 on the status port. -/
theorem test_status_reset : State.reset.status.st_v_stage = 4 ∧ State.reset.status.st_illegal = 0 := by decide +kernel

/-- T50: `TICK 2, 1` forms the operand 3. -/
theorem test_tick : tick 2 1 (lfoState 0 8 .square 2) = [.lStep, .vStep 3] := by decide +kernel

/-- An Engine with the voices given, sample rate 4 and pitch 1, its LFO in the reset state (SINE at phase 0, so `m = 0`). -/
def engine (voices : List (Voice NUM)) (queue : List (EngineCmd NUM)) : Engine NUM :=
  ⟨voices, State.reset.l, 1, 0, 1, 4, .saw, queue, 2, Config.params⟩

/-- E9: RemoveVoice(5) with two voices changes nothing; nor does a negative position. -/
theorem test_engine_remove_out_of_range :
    (engine [State.reset.v, State.reset.v] []).apply Arith.rat (.removeVoice 5) = engine [State.reset.v, State.reset.v] [] ∧
    (engine [State.reset.v] []).apply Arith.rat (.removeVoice (-1)) = engine [State.reset.v] [] := by decide +kernel

/-- P5, sample 2: the host's sum of 1/5 and -1/20 is 3/20. -/
theorem test_engine_sum :
    ((engine [⟨1 / 4, 1, 0, 1, .decay, 4, .square, 0, 0, 1, 0⟩, ⟨1 / 4, 1, 0, 1, .decay, 4, .saw, 0, 0, 1 / 2, 0⟩] []).renderSample
      Arith.rat).1 = 3 / 20 := by decide +kernel

/-- E8: a block renders the added voice from its first sample: SAW at phase 0 and level 1 gives -1/5. -/
theorem test_engine_added_voice_sounds :
    ((engine [State.reset.v] [.addVoice]).renderBlock Arith.rat 1).1 = [-1 / 5] := by decide +kernel

/-! ## A finite `NUM` (rules R6, R49): 16-bit fixed point, eight bits after the point -/

/-- `NUM_W = 16`; a value is its pattern. -/
def fixedFormat : NumFormat (BitVec 16) := ⟨16, by decide, id, id, fun _ => rfl⟩

/-- The format's operations, rounding down; `fifth` is the nearest value to 1/5 (U1), the sine a total function (rule R6). -/
def fixedArith : Arith (BitVec 16) where
  zero   := 0
  one    := 0x0100
  two    := 0x0200
  half   := 0x0080
  fifth  := 0x0033
  negOne := 0xFF00
  add x y := x + y
  sub x y := x - y
  mul x y := BitVec.ofInt 16 (x.toInt * y.toInt / 256)
  div x y := BitVec.ofInt 16 (x.toInt * 256 / y.toInt)
  floor x := x &&& 0xFF00
  lt x y := x.slt y
  le x y := x.sle y
  eq x y := x == y
  sin2pi _ := 0

/-- A sounding voice at sustain level 1, SQUARE, rate 4. -/
def fixedRegs : Regs (BitVec 16) :=
  ⟨⟨0, 0x0100, 0, 0, .sustain, 0x0400, .square, 0, 0, 0x0100, 0⟩, ⟨0, 0, 0x0100, .sine⟩, false⟩

/-- `V_SET_SUSTAIN 3/2` in 26 bits, clamped to 1; its tag is ignored (rules R53, R62). -/
theorem test_finite_set_sustain :
    (fixedRegs.acceptBits fixedFormat fixedArith .literal (0b0000000110000000_11_00000101)).regs.v.sustain = 0x0100#16 := by
  decide +kernel

/-- `V_STEP 1`: the response is 1/5's pattern, the phase 1/4's (rules R72, R74, R82). -/
theorem test_finite_v_step :
    (fixedRegs.acceptBits fixedFormat fixedArith .literal 0b0000000100000000_00_00001010).rspBits fixedFormat = some 0x0033 ∧
    ((fixedRegs.acceptBits fixedFormat fixedArith .literal 0b0000000100000000_00_00001010).regs.statusBits
      fixedFormat).st_v_phase = 0x0040 := by decide +kernel

end Sys2Proof.Tests
end

