-- ==== Sys2Proof/Tests/Witnesses.lean ====
section
/-! SUPPORT. For each statement that has hypotheses, a concrete state and operands that meet all of them together, at the ends of
the ranges its clauses name. -/

-- One declaration at a time: it bounds the number of threads the small kernel checks take.
set_option Elab.async false

namespace Sys2Proof.Tests

open Sys2Proof Sys2Proof.Machine

/-- The worked state of most witnesses: rate 4, SQUARE, every duration 1, sustain 1/2, in the stage and at the level given. -/
def ws (stage : Stage) (level : NUM) : State := voiceState 4 .square 1 1 (1 / 2) 1 0 level stage (1 / 8) 1

theorem ws_inv (stage : Stage) {level : NUM} (h0 : 0 ≤ level) (h1 : level ≤ 1) : (ws stage level).Inv :=
  ⟨⟨⟨h0, h1, by norm_num [ws, voiceState], by norm_num [ws, voiceState], by norm_num [ws, voiceState],
    by norm_num [ws, voiceState], by norm_num [ws, voiceState], by norm_num [ws, voiceState], by norm_num [ws, voiceState]⟩,
    by norm_num [ws, voiceState, State.reset, State.resetWith, Regs.reset, Lfo.reset, Config.params, Config.resetParams]⟩,
    show Config.params.reset.Legal by decide +kernel⟩

theorem witness_DecodeEncodeAgree : (Instr.vSetWave 2).wf = true ∧ decode ⟨0x0A, 3, 1⟩ = .ok (.vStep 1) := by decide +kernel

theorem witness_CommandWordBits : CmdWord.toBits (⟨0xFF, 3, 0⟩ : CmdWord NUM) 63 < 2 ^ 16 := by decide

theorem witness_OpcodeMap :
    (0x0B : Op) ∉ ([0x01, 0x02, 0x03, 0x04, 0x05, 0x06, 0x07, 0x08, 0x09, 0x0A, 0x81, 0x82, 0x87, 0x8A] : List Op) ∧
    ∃ t, exec .lStep State.reset = .next t := ⟨by decide, _, rfl⟩

theorem witness_UnusedFieldsIgnored : ((0x8A : Op) = 0x09 ∨ (0x8A : Op) = 0x8A) ∧ (0x0A : Op) ≠ 0x02 ∧ (0x0A : Op) ≠ 0x82 ∧
    ((0x82 : Op) = 0x02 ∨ (0x82 : Op) = 0x82) ∧ Instr.vNoteOff.usesWave = false ∧ Instr.lStep.usesArg = false := by decide

theorem witness_StepRunsDecodedCommand :
    ({ State.reset with input := [.command ⟨0x8A, 1, 5⟩] } : State).input = .command ⟨0x8A, 1, 5⟩ :: [] ∧
    decode ⟨0x8A, 1, 5⟩ = .ok .lStep := ⟨rfl, by decide +kernel⟩

theorem witness_IdleHoldsEveryRegister :
    State.reset.input = [] ∧ ({ State.reset with input := [.idle] } : State).input = .idle :: [] := ⟨rfl, rfl⟩

/-- Both kinds of illegal word, at the ends of the ranges of rule R54. -/
theorem witness_IllegalCommandOnlySetsFlag :
    CmdWord.Illegal (⟨0x00, 0, 0⟩ : CmdWord NUM) ∧ CmdWord.Illegal (N := NUM) ⟨0x0B, 0, 0⟩ ∧ CmdWord.Illegal (N := NUM) ⟨0xFF, 3, 7⟩ ∧ CmdWord.Illegal (N := NUM) ⟨0x02, 3, 0⟩ ∧
    CmdWord.Illegal (N := NUM) ⟨0x82, 3, 0⟩ ∧ ¬ CmdWord.Illegal (N := NUM) ⟨0x82, 2, 0⟩ ∧ ¬ CmdWord.Illegal (N := NUM) ⟨0x0A, 3, 1⟩ ∧
    ({ State.reset with input := [.command ⟨0x00, 0, 0⟩] } : State).input = .command ⟨0x00, 0, 0⟩ :: [] := by
  refine ⟨?_, ?_, ?_, ?_, ?_, ?_, ?_, rfl⟩ <;> unfold CmdWord.Illegal <;> decide

/-- A reset event, a legal command that keeps a clear flag clear, an illegal one that sets it. -/
theorem witness_IllegalFlagIsSticky :
    (∃ t, step { State.reset with illegal := true, input := [.rst] } = .next t) ∧
    (∃ t, step { State.reset with input := [.command ⟨0x09, 0, 0⟩] } = .next t ∧ t.illegal = false) ∧
    (∃ t, step { State.reset with input := [.command ⟨0x00, 0, 0⟩] } = .next t ∧ t.illegal = true) :=
  ⟨⟨_, rfl⟩, ⟨_, rfl, rfl⟩, ⟨_, rfl, rfl⟩⟩

theorem witness_EveryCommandCompletes : (ws .attack 0).Inv ∧ (ws .attack 0).v.attack ≠ 0 ∧ (ws .attack 0).v.decay ≠ 0 ∧
    (ws .attack 0).v.release ≠ 0 := ⟨ws_inv _ (by norm_num) (by norm_num), by decide +kernel, by decide +kernel, by decide +kernel⟩

theorem witness_WellFormedSequencesStayGood : ∀ i ∈ [Instr.vSetWave 2, .vNoteOn 1, .vStep 1, .lStep], i.wf = true := by decide

theorem witness_ResetFromAnyState :
    ({ ws .decay 1 with input := [.rst, .idle] } : State).input = .rst :: [.idle] := rfl

theorem witness_ResetMeetsInvariants : Config.params.reset.Legal := by decide +kernel

/-- Both branches of a note-off: release 0 and release above 0. -/
theorem witness_NoteOffBranchesOnRelease :
    (ws .sustain (1 / 2)).v.sr ≠ 0 ∧ (ws .sustain (1 / 2)).v.release ≠ 0 ∧
    (voiceState 1 .saw 0 0 0 0 0 1 .sustain 0 0).v.sr ≠ 0 ∧ (voiceState 1 .saw 0 0 0 0 0 1 .sustain 0 0).v.release = 0 := by
  decide +kernel

/-- Each stage, and at the rate's lower bound 1. -/
theorem witness_VStepComputesOneSample :
    (∀ st ∈ [Stage.attack, .decay, .sustain, .release, .off], (ws st (1 / 2)).v.sr ≠ 0 ∧ (ws st (1 / 2)).v.stage = st) ∧
    State.reset.v.sr ≠ 0 := by decide +kernel

theorem witness_LStepReturnsBareWaveform : State.reset.l.sr ≠ 0 ∧ (lfoState 0 8 .square 2).l.sr ≠ 0 := by decide +kernel

theorem witness_WaveformGenerator : Arith.rat.Exact ∧ Arith.real.Exact ∧ InUnit (0 : NUM) ∧ InUnit (1 / 2 : NUM) ∧
    (-1 / 4 : NUM) < 0 ∧ (1 / 2 : NUM) ≤ 1 / 2 ∧ (1 : NUM) ≤ 1 :=
  ⟨Arith.rat_exact, Arith.real_exact, by decide +kernel⟩

theorem witness_StepIsTheBlockAtTheRationals :
    ({ State.reset with input := [.rst, .idle] } : State).input = .rst :: [.idle] := rfl

/-- Rule R35's registers with a SINE voice at an exact phase. -/
theorem witness_RealBlockExtendsRationalBlock :
    (ws .attack 0).toRegs.Inv ∧ SineExactAt (1 / 12) ∧ SineExactAt 0 :=
  ⟨(ws_inv _ (by norm_num) (by norm_num)).regs, sineExactAt_of_twelfths _ (by decide +kernel), sineExactAt_of_twelfths _ (by decide +kernel)⟩

theorem witness_RealBlockComputesSamples :
    ((ws .attack 0).toRegs.map (Rat.cast : NUM → ℝ)).v.sr ≠ 0 ∧ ((ws .attack 0).toRegs.map (Rat.cast : NUM → ℝ)).l.sr ≠ 0 := by
  constructor <;> simp [ws, voiceState, Regs.map, Voice.map, Lfo.map, State.reset, State.resetWith, Regs.reset, Lfo.reset,
    Config.params, Config.resetParams]

theorem witness_ExactBlockKeepsRegisterInvariant :
    Arith.rat.Exact ∧ Config.params.reset.Legal ∧ (ws .attack 1).toRegs.Inv :=
  ⟨Arith.rat_exact, by decide +kernel, (ws_inv _ (by norm_num) (by norm_num)).regs⟩

/-- The operand and the LFO's frequency at the ends of their ranges, and a MODULAR parameter. -/
theorem witness_ExactBlockPhases :
    Arith.rat.Exact ∧ (ws .attack 1).toRegs.Inv ∧ InUnit (ws .attack 1).v.phase ∧ (0 : NUM) ≤ 4 ∧ (4 : NUM) ≤ (ws .attack 1).v.sr ∧
    InUnit (ws .attack 1).l.phase ∧ 0 ≤ (ws .attack 1).l.freq ∧ (ws .attack 1).l.freq ≤ (ws .attack 1).l.sr ∧
    ({ Config.params with wrap := .modular } : Params NUM).wrap = .modular :=
  ⟨Arith.rat_exact, (ws_inv _ (by norm_num) (by norm_num)).regs, by decide +kernel⟩

/-- A run that changes a register, for each of the listed commands' kinds. -/
theorem witness_OnlyListedCommandsWriteEachRegister :
    (∃ t, exec (.vStep 1) (ws .attack 0) = .next t ∧ t.v.phase ≠ (ws .attack 0).v.phase ∧ t.v.level ≠ (ws .attack 0).v.level) ∧
    (∃ t, exec .vNoteOff (ws .sustain 1) = .next t ∧ t.v.rstep ≠ (ws .sustain 1).v.rstep ∧ t.v.stage ≠ .sustain) ∧
    (∃ t, exec (.vSetWave 3) (ws .off 0) = .next t ∧ t.illegal ≠ (ws .off 0).illegal) :=
  ⟨⟨_, rfl, by decide +kernel, by decide +kernel⟩, ⟨_, rfl, by decide +kernel, by decide +kernel⟩, ⟨_, rfl, by decide +kernel⟩⟩

theorem witness_UnitsAreIndependent : (Instr.vStep 1).isVoice = true ∧ Instr.lStep.isVoice = false := by decide

theorem witness_RunningReleaseKeepsItsStep :
    (ws .release (1 / 2)).v.stage = .release ∧
    (Instr.vSetRelease 3 = .vSetRelease 3 ∨ Instr.vSetRelease 3 = .vSetSr 3 ∨ Instr.vSetRelease 3 = .vSetSustain 3) :=
  ⟨rfl, .inl rfl⟩

theorem witness_NonStepCommandsAreIdempotent :
    (ws .sustain (1 / 2)).v.sr ≠ 0 ∧ (∀ f, Instr.vNoteOff ≠ .vStep f) ∧ Instr.vNoteOff ≠ .lStep :=
  ⟨by decide +kernel, nofun, nofun⟩

theorem witness_StepKeepsRegisterInvariant :
    (ws .attack (1 / 2)).Inv ∧ (∃ t, step (ws .attack (1 / 2)) = .next t) ∧ Config.params.reset.Legal ∧
    (∃ t out, runCommands [.vNoteOn 1, .vStep 1] (State.resetWith Config.params) = .next (t, out)) ∧
    (∃ t, steps 1 { State.resetWith Config.params with input := [.command ⟨0x0A, 0, 1⟩] } = .next t) :=
  ⟨ws_inv _ (by norm_num) (by norm_num), ⟨_, rfl⟩, by decide +kernel, ⟨_, _, rfl⟩, ⟨_, rfl⟩⟩

theorem witness_StepKeepsEnvelopeInvariant :
    (ws .release (1 / 2)).Inv ∧ (ws .release (1 / 2)).v.EnvInv ∧
    ∃ t, step { ws .release (1 / 2) with input := [.command ⟨0x0A, 0, 1⟩] } = .next t ∧ t.v.stage = .release :=
  ⟨ws_inv _ (by norm_num) (by norm_num), ⟨nofun, fun _ _ => by decide +kernel⟩, _, rfl, by decide +kernel⟩

/-- The four clauses, the operand at both ends of its range, a negative one, one above the rate. -/
theorem witness_VoicePhaseInvariant :
    (1 ≤ (ws .attack 0).v.sr ∧ InUnit (ws .attack 0).v.phase ∧ (0 : NUM) ≤ 4 ∧ (4 : NUM) ≤ (ws .attack 0).v.sr) ∧
    StepsInRange [.vStep 4, .vNoteOff] (ws .attack 0) ∧ ((-1 : NUM) < 0 ∧ (ws .attack 0).v.phase < 1) ∧
    (ws .attack 0).cfg.wrap = .literal ∧ ((ws .attack 0).v.sr < 5 ∧ 1 ≤ (voiceState 4 .saw 0 0 0 0 1 0 .off 0 0).v.phase) :=
  ⟨by decide +kernel,
    ⟨fun f h => by cases h; decide +kernel, nofun, fun _ _ => ⟨nofun, nofun, fun _ _ => trivial⟩⟩,
    by decide +kernel, rfl, by decide +kernel⟩

/-- The frequency at both ends of its range, and a negative one from phase 0 and from below 0. -/
theorem witness_LfoPhaseInvariantAndRange :
    (1 ≤ (lfoState 0 4 .saw 4).l.sr ∧ InUnit (lfoState 0 4 .saw 4).l.phase ∧ 0 ≤ (lfoState 0 4 .saw 4).l.freq ∧
      (lfoState 0 4 .saw 4).l.freq ≤ (lfoState 0 4 .saw 4).l.sr) ∧
    StepsInRange [.lStep] (lfoState 0 4 .square 0) ∧
    (lfoState 0 4 .saw (-1)).cfg.wrap = .literal ∧ ((lfoState 0 4 .saw (-1)).l.freq < 0 ∧ (lfoState 0 4 .saw (-1)).l.phase < 1) ∧
    ((lfoState (-1 / 4) 4 .square (-1)).l.freq < 0 ∧ (lfoState (-1 / 4) 4 .square (-1)).l.phase < 0) :=
  ⟨by decide +kernel, ⟨nofun, fun _ => by decide +kernel, fun _ _ => trivial⟩, rfl, by decide +kernel, by decide +kernel⟩

theorem witness_VoiceOutputRange :
    (ws .attack 1).Inv ∧ InUnit (ws .attack 1).v.phase ∧ (ws .off 0).Inv ∧ (ws .off 0).v.stage = .off :=
  ⟨ws_inv _ (by norm_num) (by norm_num), by decide +kernel, ws_inv _ (by norm_num) (by norm_num), rfl⟩

theorem witness_LiteralAndModularWrapAgree :
    Arith.rat.Exact ∧ InUnit (0 : NUM) ∧ InUnit (3 / 4 : NUM) ∧ (0 : NUM) ≤ 1 ∧ (1 : NUM) ≤ 1 :=
  ⟨Arith.rat_exact, by decide +kernel⟩

theorem witness_StageRelation :
    (ws .attack 0).v.sr ≠ 0 ∧ 0 ≤ (ws .attack 0).v.release ∧ (ws .off 0).v.sr ≠ 0 ∧ 0 < (ws .off 0).v.release ∧
    (ws .off 0).v.stage = .off ∧ (ws .off 0).v.level = 0 := by decide +kernel

theorem witness_OneTransitionPerSample :
    (voiceState 4 .square 0 0 (3 / 4) 0 0 0 .off 0 0).v.attack = 0 ∧ (voiceState 4 .square 0 0 (3 / 4) 0 0 0 .off 0 0).v.decay = 0 := by
  decide +kernel

/-- T33: from level 3/8 the attack of `1 * 4` samples takes `ceil(5/8 * 4) = 3`; from level 1 it takes one. -/
theorem witness_AttackLength :
    0 < (ws .release (3 / 8)).v.attack ∧ 0 < (ws .release (3 / 8)).v.sr ∧ (ws .release (3 / 8)).v.level ≤ 1 ∧
    [(0 : NUM), 0].length < max 1 ⌈(1 - (ws .release (3 / 8)).v.level) * (ws .release (3 / 8)).v.attack * (ws .release (3 / 8)).v.sr⌉₊ ∧
    [(0 : NUM)].length = max 1 ⌈(1 - (ws .sustain 1).v.level) * (ws .sustain 1).v.attack * (ws .sustain 1).v.sr⌉₊ := by
  refine ⟨by decide +kernel, by decide +kernel, by decide +kernel, ?_, ?_⟩ <;> norm_num [ws, voiceState]

/-- `ceil(1 * 4) = 4` samples: three are too few, four are enough. -/
theorem witness_DecayLength :
    (ws .decay 1).v.stage = .decay ∧ (ws .decay 1).v.level = 1 ∧ 0 < (ws .decay 1).v.decay ∧ 0 < (ws .decay 1).v.sr ∧
    (ws .decay 1).v.sustain < 1 ∧
    [(0 : NUM), 0, 0].length < max 1 ⌈(ws .decay 1).v.decay * (ws .decay 1).v.sr⌉₊ ∧
    max 1 ⌈(ws .decay 1).v.decay * (ws .decay 1).v.sr⌉₊ ≤ [(0 : NUM), 0, 0, 0].length := by
  refine ⟨rfl, rfl, by decide +kernel, by decide +kernel, by decide +kernel, ?_, ?_⟩ <;> norm_num [ws, voiceState]

/-- T27: `release * sr = 23/10` takes three samples, not two; and a release from level 0. -/
theorem witness_ReleaseLength :
    (0 < (voiceState 10 .square 0 0 1 (23 / 100) 0 1 .sustain 0 0).v.release ∧
      0 < (voiceState 10 .square 0 0 1 (23 / 100) 0 1 .sustain 0 0).v.sr ∧
      0 < (voiceState 10 .square 0 0 1 (23 / 100) 0 1 .sustain 0 0).v.level) ∧
    [(0 : NUM), 0].length < ⌈(23 / 100 : NUM) * 10⌉₊ ∧ ⌈(23 / 100 : NUM) * 10⌉₊ ≤ [(0 : NUM), 0, 0].length ∧
    (0 < (ws .off 0).v.release ∧ 0 < (ws .off 0).v.sr ∧ (ws .off 0).v.level = 0 ∧ 1 ≤ [(0 : NUM)].length) := by
  have h : ⌈(23 / 100 : NUM) * 10⌉₊ = 3 := by rw [Nat.ceil_eq_iff] <;> norm_num
  refine ⟨by decide +kernel, ?_, ?_, by decide +kernel⟩ <;> rw [h] <;> decide

theorem witness_SecondNoteOffRecomputesStep : 0 < (ws .sustain 1).v.release ∧ 0 < (ws .sustain 1).v.sr := by decide +kernel

theorem witness_VoicePhaseIsFractionalPart :
    1 ≤ (ws .off 0).v.sr ∧ InUnit (ws .off 0).v.phase ∧ ∀ f ∈ [(0 : NUM), 3, 4], 0 ≤ f ∧ f ≤ (ws .off 0).v.sr := by decide +kernel

/-- Frequency 0, frequency at the rate, and the rate four times the frequency. -/
theorem witness_LfoConstantOrPeriodic :
    (1 ≤ (lfoState (1 / 4) 4 .saw 0).l.sr ∧ InUnit (lfoState (1 / 4) 4 .saw 0).l.phase ∧ (lfoState (1 / 4) 4 .saw 0).l.freq = 0) ∧
    (lfoState (1 / 4) 4 .saw 4).l.freq = (lfoState (1 / 4) 4 .saw 4).l.sr ∧
    (0 < (lfoState 0 8 .square 2).l.freq ∧ (lfoState 0 8 .square 2).l.freq ≤ (lfoState 0 8 .square 2).l.sr ∧
      (lfoState 0 8 .square 2).l.sr = (4 : Nat) * (lfoState 0 8 .square 2).l.freq) := by decide +kernel

/-- A full queue, an empty one, one with room for two more. -/
theorem witness_EngineQueueIsFifo :
    ({ engine [] [.addVoice] with capacity := 1 } : Engine NUM).capacity ≤ (engine [] [.addVoice]).queue.length ∧
    (engine [] []).queue = [] ∧
    (engine [] []).queue.length + [EngineCmd.addVoice, .removeVoice (N := NUM) 0].length ≤ (engine [] []).capacity ∧
    (engine [] [.addVoice]).queue = .addVoice :: [] := by decide +kernel

/-- Positions below, at and above the number of voices, and a negative one. -/
theorem witness_EngineStructuralCommands :
    ¬((0 : Int) ≤ -1 ∧ (-1 : Int) < (engine [State.reset.v] []).voices.length) ∧
    ¬((0 : Int) ≤ 1 ∧ (1 : Int) < (engine [State.reset.v] []).voices.length) ∧
    0 < (engine [State.reset.v] []).voices.length ∧ (1 : Nat) ≠ 0 := by decide +kernel

/-- No voice, one, and five. -/
theorem witness_RenderSampleSumsVoices :
    Arith.rat.Exact ∧ (engine [] []).voices = [] ∧
    ((engine [(ws .attack 1).v] []).voices = [(ws .attack 1).v] ∧ (ws .attack 1).v.Inv ∧ InUnit (ws .attack 1).v.phase) ∧
    (engine (List.replicate 5 (ws .attack 1).v) []).voices.length ≤ 5 :=
  ⟨Arith.rat_exact, rfl, ⟨rfl, (ws_inv _ (by norm_num) (by norm_num)).regs.voice, by decide +kernel⟩, by decide +kernel⟩

/-- Pitch 2, depth 2, rate 4: the range's ends are both reached (0 and 4). -/
theorem witness_RenderSampleKeepsPhases :
    Arith.rat.Exact ∧
    1 ≤ (lfoState 0 4 .sine 1).l.sr ∧ InUnit (lfoState 0 4 .sine 1).l.phase ∧ 0 ≤ (lfoState 0 4 .sine 1).l.freq ∧
    (lfoState 0 4 .sine 1).l.freq ≤ (lfoState 0 4 .sine 1).l.sr ∧
    ∀ v ∈ [(ws .attack 0).v], 1 ≤ v.sr ∧ InUnit v.phase ∧ 0 ≤ (2 : NUM) - |2| ∧ (2 : NUM) + |2| ≤ v.sr :=
  ⟨Arith.rat_exact, by decide +kernel⟩

theorem witness_EngineConstructedWithOneVoice : 0 < (engine [State.reset.v] []).capacity := by decide +kernel

/-- The fixed-point format of the tests: every pattern is that of its value. -/
theorem witness_FiniteFormatCommandWord : ∀ p, fixedFormat.bits (fixedFormat.value p) = p := fun _ => rfl

/-- The opcode 0x00, one just above the Voice's last, and a V_NOTE_OFF with two different operand fields. -/
theorem witness_FinitePortsRunTheBlock :
    ((0x3FFFF00 : BitVec (fixedFormat.width + 10)).extractLsb' 0 8 : Op) ∉
      ([0x01, 0x02, 0x03, 0x04, 0x05, 0x06, 0x07, 0x08, 0x09, 0x0A, 0x81, 0x82, 0x87, 0x8A] : List Op) ∧
    (0x3FFFC0B : BitVec (fixedFormat.width + 10)).extractLsb' 0 8 ∉
      ([0x01, 0x02, 0x03, 0x04, 0x05, 0x06, 0x07, 0x08, 0x09, 0x0A, 0x81, 0x82, 0x87, 0x8A] : List Op) ∧
    (0x3FFFC09 : BitVec (fixedFormat.width + 10)).extractLsb' 0 10 = (0x09 : BitVec (fixedFormat.width + 10)).extractLsb' 0 10 ∧
    (0x3FFFC09 : BitVec (fixedFormat.width + 10)).extractLsb' 0 8 ∈ ([0x02, 0x09, 0x82, 0x8A] : List Op) := by decide +kernel

end Sys2Proof.Tests
end

section
/-! The envelope step and `V_NOTE_OFF` as formulas in any exact domain (rules R67 to R69, R77 to R80), the stage relation that
follows from them (rule R36), and the reset values (rule R37). Where a lemma has `v.sr ≠ 0`, it shuts out the free quotient of
log entry 3: every divisor is then the sample rate times a time that is not zero. -/

namespace Sys2Proof

section
variable {N : Type} [Field N] [LinearOrder N] [FloorRing N] {A : Arith N}

/-- Rule R77: one sample of Attack. -/
theorem Arith.Exact.envAttack_eq (h : A.Exact) {v : Machine.Voice N} (hsr : v.sr ≠ 0) :
    Machine.envAttack A v =
      if v.attack = 0 ∨ v.level + 1 / (v.attack * v.sr) ≥ 1 then { v with level := 1, stage := .decay }
      else { v with level := v.level + 1 / (v.attack * v.sr) } := by
  by_cases ha : v.attack = 0
  · simp [Machine.envAttack, h.eq, h.zero, h.one, ha]
  · simp [Machine.envAttack, h.eq, h.le, h.zero, h.one, h.add, h.mul, h.div _ _ (mul_ne_zero ha hsr), ha]

/-- Rule R78: one sample of Decay. -/
theorem Arith.Exact.envDecay_eq (h : A.Exact) {v : Machine.Voice N} (hsr : v.sr ≠ 0) :
    Machine.envDecay A v =
      if v.decay = 0 ∨ v.level - (1 - v.sustain) / (v.decay * v.sr) ≤ v.sustain then
        { v with level := v.sustain, stage := .sustain }
      else { v with level := v.level - (1 - v.sustain) / (v.decay * v.sr) } := by
  by_cases hd : v.decay = 0
  · simp [Machine.envDecay, h.eq, h.zero, hd]
  · simp [Machine.envDecay, h.eq, h.le, h.zero, h.one, h.sub, h.mul, h.div _ _ (mul_ne_zero hd hsr), hd]

/-- Rule R80: one sample of Release. -/
theorem Arith.Exact.envRelease_eq (h : A.Exact) (v : Machine.Voice N) :
    Machine.envRelease A v =
      if v.level - v.rstep ≤ 0 then { v with level := 0, stage := .off } else { v with level := v.level - v.rstep } := by
  simp [Machine.envRelease, h.le, h.zero, h.sub]

/-- Rules R67 to R69: the two branches of `V_NOTE_OFF`. -/
theorem Arith.Exact.noteOff_eq (h : A.Exact) {v : Machine.Voice N} (hsr : v.sr ≠ 0) :
    v.noteOff A =
      if v.release = 0 then { v with level := 0, stage := .off }
      else { v with rstep := v.level / (v.release * v.sr), stage := .release } := by
  by_cases hr : v.release = 0
  · simp [Machine.Voice.noteOff, h.eq, h.zero, hr]
  · simp [Machine.Voice.noteOff, h.eq, h.zero, h.mul, h.div _ _ (mul_ne_zero hr hsr), hr]

/-! The stage after the envelope step, for each stage before it (rule R36). -/

theorem Arith.Exact.envelope_stage_of_attack (h : A.Exact) {v : Machine.Voice N} (hsr : v.sr ≠ 0) (hst : v.stage = .attack) :
    (Machine.envelope A v).stage = if v.attack = 0 ∨ v.level + 1 / (v.attack * v.sr) ≥ 1 then .decay else .attack := by
  rw [Machine.envelope_attack A hst, h.envAttack_eq hsr]
  split_ifs
  · rfl
  · exact hst

theorem Arith.Exact.envelope_stage_of_decay (h : A.Exact) {v : Machine.Voice N} (hsr : v.sr ≠ 0) (hst : v.stage = .decay) :
    (Machine.envelope A v).stage =
      if v.decay = 0 ∨ v.level - (1 - v.sustain) / (v.decay * v.sr) ≤ v.sustain then .sustain else .decay := by
  rw [Machine.envelope_decay A hst, h.envDecay_eq hsr]
  split_ifs
  · rfl
  · exact hst

theorem Arith.Exact.envelope_stage_of_release (h : A.Exact) {v : Machine.Voice N} (hst : v.stage = .release) :
    (Machine.envelope A v).stage = if v.level - v.rstep ≤ 0 then .off else .release := by
  rw [Machine.envelope_release A hst, h.envRelease_eq]
  split_ifs
  · rfl
  · exact hst

end

namespace Machine

/-- Sustain is left by no envelope step (rules R36, R79). -/
theorem envelope_stage_of_sustain {N : Type} (A : Arith N) {v : Voice N} (hst : v.stage = .sustain) :
    (envelope A v).stage = .sustain := by
  rw [envelope_sustain A hst]
  exact hst

/-- Off is left by no envelope step (rules R36, R81). -/
theorem envelope_stage_of_off {N : Type} (A : Arith N) {v : Voice N} (hst : v.stage = .off) :
    (envelope A v).stage = .off := by
  rw [envelope_off A hst]
  exact hst

/-- The stage after `V_NOTE_OFF` (rule R36), where the release time is in the range of rule R35. -/
theorem Voice.noteOff_stage {v : Voice NUM} (hsr : v.sr ≠ 0) (hrel : 0 ≤ v.release) :
    (v.noteOff Arith.rat).stage = if v.release > 0 then .release else .off := by
  rw [Arith.rat_exact.noteOff_eq hsr]
  by_cases hr : v.release = 0
  · simp [hr]
  · simp [hr, lt_of_le_of_ne hrel (Ne.symm hr)]

/-- `V_SET_WAVE` leaves the stage, with the reserved tag too (rule R59). -/
theorem Regs.vSetWave_stage {N : Type} (tag : Tag) (r : Regs N) : (r.vSetWave tag).regs.v.stage = r.v.stage := by
  unfold Regs.vSetWave
  split <;> rfl

/-- `L_SET_WAVE` leaves the Voice unit, with the reserved tag too (rule R86). -/
theorem Regs.lSetWave_v {N : Type} (tag : Tag) (r : Regs N) : (r.lSetWave tag).regs.v = r.v := by
  unfold Regs.lSetWave
  split <;> rfl

/-- A note-off at level 0 with a release time enters Release with step 0, whatever the stage before it (rules R36, R70). -/
theorem Voice.noteOff_of_level_zero {v : Voice NUM} (hsr : v.sr ≠ 0) (hrel : 0 < v.release) (hlevel : v.level = 0) :
    v.noteOff Arith.rat = { v with rstep := 0, stage := .release } := by
  simp [Arith.rat_exact.noteOff_eq hsr, hrel.ne', hlevel]

/-- Settles O41: the stage table row by row, then the one-sample pass through Release of a note-off in a silent Off. -/
theorem stageRelation : Obligations.StageRelation := by
  refine ⟨fun i s hsr hrel => ?_, fun s f hsr hrel _ hlevel => ?_⟩
  · cases i with
    | vNoteOff => exact ⟨_, rfl, Voice.noteOff_stage hsr hrel⟩
    | vStep f =>
      refine ⟨_, rfl, ?_⟩
      cases hst : s.v.stage with
      | attack => exact Arith.rat_exact.envelope_stage_of_attack hsr hst
      | decay => exact Arith.rat_exact.envelope_stage_of_decay hsr hst
      | sustain => exact envelope_stage_of_sustain _ hst
      | release => exact Arith.rat_exact.envelope_stage_of_release hst
      | off => exact envelope_stage_of_off _ hst
    | vSetWave tag => exact ⟨_, rfl, Regs.vSetWave_stage tag s.toRegs⟩
    | lSetWave tag => exact ⟨_, rfl, congrArg Voice.stage (Regs.lSetWave_v tag s.toRegs)⟩
    | _ => exact ⟨_, rfl, rfl⟩
  · have hoff := Voice.noteOff_of_level_zero hsr hrel hlevel
    refine ⟨_, _, rfl, congrArg Voice.stage hoff, congrArg Voice.rstep hoff, rfl, ?_⟩
    change ((s.v.noteOff Arith.rat).tick Arith.rat s.cfg.wrap f).stage = .off
    rw [hoff]
    exact (Arith.rat_exact.envelope_stage_of_release rfl).trans (if_pos (by simp [hlevel]))

/-- Settles O12: the reset state is written register by register. -/
theorem resetValues : Obligations.ResetValues := fun _ => ⟨rfl, rfl, rfl⟩

end Machine

end Sys2Proof
end

section
/-! The command word in detail: which words the decoder rejects, which fields it reads (rules R51, R53), what an illegal word does
when it is accepted (rule R54), and which commands drive a response (rules R50, R51). -/

namespace Sys2Proof

/-- The fourteen opcodes of rule R51. -/
abbrev assignedOps : List Op :=
  [0x01, 0x02, 0x03, 0x04, 0x05, 0x06, 0x07, 0x08, 0x09, 0x0A, 0x81, 0x82, 0x87, 0x8A]

/-- Rule R54 case (a): outside rule R51's table the decoder rejects the word under its own opcode. -/
theorem decode_of_unassigned {w : CmdWord NUM} (h : w.op ∉ assignedOps) : decode w = .illegalOp w.op := by
  unfold decode
  split
  case h_15 => rfl
  all_goals exact absurd (by simp [*]) h

/-- `V_NOTE_OFF` and `L_STEP` read neither field (rule R53). -/
theorem decode_of_no_operand {op : Op} (h : op = 0x09 ∨ op = 0x8A) (t t' : Tag) (a a' : NUM) :
    decode ⟨op, t, a⟩ = decode ⟨op, t', a'⟩ := by
  obtain rfl | rfl := h <;> rfl

/-- Only the two waveform opcodes read the tag (rule R53). -/
theorem decode_ignores_wave {op : Op} (hv : op ≠ 0x02) (hl : op ≠ 0x82) (t t' : Tag) (a : NUM) :
    decode ⟨op, t, a⟩ = decode ⟨op, t', a⟩ := by
  by_cases hop : op ∈ assignedOps
  · fin_cases hop
    on_goal 12 => exact absurd rfl hl
    on_goal 2 => exact absurd rfl hv
    all_goals rfl
  · have rejected (tag : Tag) : decode ⟨op, tag, a⟩ = .illegalOp op := decode_of_unassigned hop
    rw [rejected, rejected]

/-- The two waveform opcodes do not read the operand (rule R53). -/
theorem decode_wave_ignores_arg {op : Op} (h : op = 0x02 ∨ op = 0x82) (t : Tag) (a a' : NUM) :
    decode ⟨op, t, a⟩ = decode ⟨op, t, a'⟩ := by
  obtain rfl | rfl := h <;> rfl

/-- The encoder's zeros (rules R53, R56), for the instruction set as a whole. -/
theorem encode_unusedFieldsZero : ∀ i : Instr, Laws.UnusedFieldsZero.Statement i
  | .vSetSr a => Laws.UnusedFieldsZero.vSetSr a
  | .vSetWave t => Laws.UnusedFieldsZero.vSetWave t
  | .vSetAttack a => Laws.UnusedFieldsZero.vSetAttack a
  | .vSetDecay a => Laws.UnusedFieldsZero.vSetDecay a
  | .vSetSustain a => Laws.UnusedFieldsZero.vSetSustain a
  | .vSetRelease a => Laws.UnusedFieldsZero.vSetRelease a
  | .vSetFreq a => Laws.UnusedFieldsZero.vSetFreq a
  | .vNoteOn a => Laws.UnusedFieldsZero.vNoteOn a
  | .vNoteOff => Laws.UnusedFieldsZero.vNoteOff
  | .vStep a => Laws.UnusedFieldsZero.vStep a
  | .lSetSr a => Laws.UnusedFieldsZero.lSetSr a
  | .lSetWave t => Laws.UnusedFieldsZero.lSetWave t
  | .lSetFreq a => Laws.UnusedFieldsZero.lSetFreq a
  | .lStep => Laws.UnusedFieldsZero.lStep

/-- Rule R51, column "returns a sample": the two rows that say yes. -/
theorem Instr.returnsSample_iff (i : Instr) : i.returnsSample = true ↔ (∃ f, i = .vStep f) ∨ i = .lStep := by
  cases i <;> simp [Instr.returnsSample]

namespace Machine

/-! Responses. -/

/-- `V_SET_WAVE` drives no response, with the reserved tag too (rules R54, R59). -/
@[simp] theorem Regs.vSetWave_rsp {N : Type} (tag : Tag) (r : Regs N) : (r.vSetWave tag).rsp = none := by
  unfold Regs.vSetWave
  split <;> rfl

/-- `L_SET_WAVE` drives no response, with the reserved tag too (rules R54, R86). -/
@[simp] theorem Regs.lSetWave_rsp {N : Type} (tag : Tag) (r : Regs N) : (r.lSetWave tag).rsp = none := by
  unfold Regs.lSetWave
  split <;> rfl

/-- A command's next state holds a response exactly where rule R51's column "returns a sample" says yes (rule R50). -/
theorem exec_rsp_isSome {i : Instr} {s t : State} (h : exec i s = .next t) : t.rsp.isSome = i.returnsSample := by
  cases i with
  | vSetWave tag => cases h; exact congrArg Option.isSome (Regs.vSetWave_rsp tag s.toRegs)
  | lSetWave tag => cases h; exact congrArg Option.isSome (Regs.lSetWave_rsp tag s.toRegs)
  | _ => cases h; rfl

/-! Accepting a command word. -/

/-- A step on a pending command word accepts it, with the later events pending. -/
theorem step_command (s : State) (w : CmdWord NUM) (es : List (PortEvent NUM)) :
    step { s with input := .command w :: es } = accept w { s with input := es } := rfl

/-- Accepting a word depends on it through its decoding alone. -/
theorem accept_congr {w w' : CmdWord NUM} (h : decode w = decode w') (s : State) : accept w s = accept w' s := by
  unfold accept
  rw [h]

/-- A step on a pending command word depends on the word through its decoding alone. -/
theorem step_command_congr {w w' : CmdWord NUM} (h : decode w = decode w') (s : State) (es : List (PortEvent NUM)) :
    step { s with input := .command w :: es } = step { s with input := .command w' :: es } := by
  rw [step_command, step_command, accept_congr h]

/-- An unassigned opcode raises IllegalCommand (rule R54 case (a)). -/
theorem accept_of_unassigned {w : CmdWord NUM} (h : w.op ∉ assignedOps) (s : State) :
    accept w s = s.answer s.toRegs.raiseIllegal := by
  unfold accept
  rw [decode_of_unassigned h]

/-- A waveform opcode with the reserved tag raises IllegalCommand (rule R54 case (b)). -/
theorem accept_of_reserved_tag {w : CmdWord NUM} (hop : w.op = 0x02 ∨ w.op = 0x82) (htag : w.wave = 3) (s : State) :
    accept w s = s.answer s.toRegs.raiseIllegal := by
  obtain ⟨op, tag, a⟩ := w
  obtain rfl : tag = 3 := htag
  obtain rfl | rfl : op = 0x02 ∨ op = 0x82 := hop
  · rfl
  · rfl

/-- Every illegal command word raises IllegalCommand (rules R54, R104). -/
theorem accept_of_illegal {w : CmdWord NUM} (h : w.Illegal) (s : State) :
    accept w s = s.answer s.toRegs.raiseIllegal := by
  obtain hop | ⟨hop, htag⟩ := h
  · exact accept_of_unassigned hop s
  · exact accept_of_reserved_tag hop htag s

/-! The obligations. -/

/-- Settles O4: the table's rows by evaluation, the rejected opcodes, and the column "returns a sample". -/
theorem opcodeMap : Obligations.OpcodeMap := by
  refine ⟨fun t a => ?rows, fun w => decode_of_unassigned, fun i s t h => ?response⟩
  case rows => exact ⟨rfl, rfl, rfl, rfl, rfl, rfl, rfl, rfl, rfl, rfl, rfl, rfl, rfl, rfl⟩
  case response => rw [← Option.isSome_iff_ne_none, exec_rsp_isSome h, Instr.returnsSample_iff]

/-- Settles O5: a step sees the word's decoding alone, which reads no field that the command does not use. -/
theorem unusedFieldsIgnored : Obligations.UnusedFieldsIgnored :=
  ⟨fun s es _ t t' a a' =>
    ⟨fun h => step_command_congr (decode_of_no_operand h t t' a a') s es,
      fun hv hl => step_command_congr (decode_ignores_wave hv hl t t' a) s es,
      fun h => step_command_congr (decode_wave_ignores_arg h t a a') s es⟩,
    encode_unusedFieldsZero⟩

/-- Settles O8: the step accepts the word, and both kinds of illegal word raise IllegalCommand. -/
theorem illegalCommandOnlySetsFlag : Obligations.IllegalCommandOnlySetsFlag := by
  intro s w es hin hillegal
  calc
    step s = accept w { s with input := es } := step_cons s _ es hin
    _ = .next { s with illegal := true, rsp := none, input := es } := accept_of_illegal hillegal _

end Machine

end Sys2Proof
end

section
/-! The configuration commands. Each setter's clamp as a formula in any exact domain (rules R58, R60 to R63); the two waveform
commands on a tag that names a waveform and on the reserved one (rules R59, R86); the whole next state of a command that writes
one unit and drives no response. -/

namespace Sys2Proof

section
variable {N : Type} [Field N] [LinearOrder N] [FloorRing N] {A : Arith N}

/-- Rule R58: the sample rate is floored at 1. -/
theorem Arith.Exact.setSr_eq (h : A.Exact) (v : Machine.Voice N) (arg : N) :
    v.setSr A arg = { v with sr := if arg < 1 then 1 else arg } := by
  rw [Machine.Voice.setSr, h.clampLo_eq, h.one]

/-- Rule R60: the attack time is floored at 0. -/
theorem Arith.Exact.setAttack_eq (h : A.Exact) (v : Machine.Voice N) (arg : N) :
    v.setAttack A arg = { v with attack := if arg < 0 then 0 else arg } := by
  rw [Machine.Voice.setAttack, h.clampLo_eq, h.zero]

/-- Rule R61: the decay time is floored at 0. -/
theorem Arith.Exact.setDecay_eq (h : A.Exact) (v : Machine.Voice N) (arg : N) :
    v.setDecay A arg = { v with decay := if arg < 0 then 0 else arg } := by
  rw [Machine.Voice.setDecay, h.clampLo_eq, h.zero]

/-- Rule R62: the sustain level is clamped to `[0,1]`. -/
theorem Arith.Exact.setSustain_eq (h : A.Exact) (v : Machine.Voice N) (arg : N) :
    v.setSustain A arg = { v with sustain := if arg < 0 then 0 else if arg > 1 then 1 else arg } := by
  rw [Machine.Voice.setSustain, h.clamp01_eq]

/-- Rule R63: the release time is floored at 0. -/
theorem Arith.Exact.setRelease_eq (h : A.Exact) (v : Machine.Voice N) (arg : N) :
    v.setRelease A arg = { v with release := if arg < 0 then 0 else arg } := by
  rw [Machine.Voice.setRelease, h.clampLo_eq, h.zero]

end

namespace Machine

/-! The waveform commands on the registers. -/

/-- `V_SET_WAVE` with a waveform's tag selects that waveform (rule R59). -/
@[simp] theorem Regs.vSetWave_tag {N : Type} (w : Wave) (r : Regs N) :
    r.vSetWave w.tag = (r.setV (r.v.setWave w)).complete := by
  rw [Regs.vSetWave, Wave.ofTag_tag]

/-- `L_SET_WAVE` with a waveform's tag selects that waveform (rule R86). -/
@[simp] theorem Regs.lSetWave_tag {N : Type} (w : Wave) (r : Regs N) :
    r.lSetWave w.tag = (r.setL (r.l.setWave w)).complete := by
  rw [Regs.lSetWave, Wave.ofTag_tag]

/-- `V_SET_WAVE` with the reserved tag raises IllegalCommand (rule R59). -/
@[simp] theorem Regs.vSetWave_reserved {N : Type} (r : Regs N) : r.vSetWave 3 = r.raiseIllegal := rfl

/-- `L_SET_WAVE` with the reserved tag raises IllegalCommand (rule R86). -/
@[simp] theorem Regs.lSetWave_reserved {N : Type} (r : Regs N) : r.lSetWave 3 = r.raiseIllegal := rfl

/-! The whole next state of a command that returns no sample. -/

/-- A command that only writes the Voice unit. -/
theorem State.answer_setV (s : State) (v : Voice NUM) :
    s.answer (s.toRegs.setV v).complete = .next { s with v := v, rsp := none } := rfl

/-- A command that only writes the LFO unit. -/
theorem State.answer_setL (s : State) (l : Lfo NUM) :
    s.answer (s.toRegs.setL l).complete = .next { s with l := l, rsp := none } := rfl

/-- A command that raises IllegalCommand (rule R104). -/
theorem State.answer_raiseIllegal (s : State) :
    s.answer s.toRegs.raiseIllegal = .next { s with illegal := true, rsp := none } := rfl

/-- The machine's `V_SET_WAVE` with a waveform's tag (rule R59). -/
theorem exec_vSetWave_tag (w : Wave) (s : State) :
    exec (.vSetWave w.tag) s = .next { s with v := { s.v with wave := w }, rsp := none } := by
  rw [exec_vSetWave, Regs.vSetWave_tag, State.answer_setV, Voice.setWave]

/-- The machine's `L_SET_WAVE` with a waveform's tag (rule R86). -/
theorem exec_lSetWave_tag (w : Wave) (s : State) :
    exec (.lSetWave w.tag) s = .next { s with l := { s.l with wave := w }, rsp := none } := by
  rw [exec_lSetWave, Regs.lSetWave_tag, State.answer_setL, Lfo.setWave]

/-- The machine's `V_SET_WAVE` with the reserved tag (rules R59, R104). -/
theorem exec_vSetWave_reserved (s : State) : exec (.vSetWave 3) s = .next { s with illegal := true, rsp := none } := by
  rw [exec_vSetWave, Regs.vSetWave_reserved, State.answer_raiseIllegal]

/-- The machine's `L_SET_WAVE` with the reserved tag (rules R86, R104). -/
theorem exec_lSetWave_reserved (s : State) : exec (.lSetWave 3) s = .next { s with illegal := true, rsp := none } := by
  rw [exec_lSetWave, Regs.lSetWave_reserved, State.answer_raiseIllegal]

/-! The obligations. -/

/-- Settles O16: the rows of the opcode table, and for each setter its clamp in the exact rationals. -/
theorem voiceSettersStoreClampedOperand : Obligations.VoiceSettersStoreClampedOperand := by
  intro s t a
  obtain ⟨dSr, -, dAttack, dDecay, dSustain, dRelease, dFreq, -⟩ := opcodeMap.1 t a
  refine ⟨⟨dSr, ?sr⟩, ⟨dAttack, ?attack⟩, ⟨dDecay, ?decay⟩, ⟨dSustain, ?sustain⟩, ⟨dRelease, ?release⟩, ⟨dFreq, ?freq⟩⟩
  case sr => rw [exec_vSetSr, Regs.vSetSr, Arith.rat_exact.setSr_eq, State.answer_setV]
  case attack => rw [exec_vSetAttack, Regs.vSetAttack, Arith.rat_exact.setAttack_eq, State.answer_setV]
  case decay => rw [exec_vSetDecay, Regs.vSetDecay, Arith.rat_exact.setDecay_eq, State.answer_setV]
  case sustain => rw [exec_vSetSustain, Regs.vSetSustain, Arith.rat_exact.setSustain_eq, State.answer_setV]
  case release => rw [exec_vSetRelease, Regs.vSetRelease, Arith.rat_exact.setRelease_eq, State.answer_setV]
  case freq => rw [exec_vSetFreq, Regs.vSetFreq, Voice.setFreq, State.answer_setV]

/-- Settles O17: the rows of the opcode table; the tags 0, 1, 2 are those of the three waveforms, and tag 3 is the reserved
one. -/
theorem waveformCommands : Obligations.WaveformCommands := by
  intro s t a
  obtain ⟨-, dVoice, -, -, -, -, -, -, -, -, -, dLfo, -⟩ := opcodeMap.1 t a
  exact ⟨dVoice, dLfo,
    exec_vSetWave_tag .sine s, exec_vSetWave_tag .square s, exec_vSetWave_tag .saw s, exec_vSetWave_reserved s,
    exec_lSetWave_tag .sine s, exec_lSetWave_tag .square s, exec_lSetWave_tag .saw s, exec_lSetWave_reserved s⟩

end Machine

end Sys2Proof
end

section
/-! `V_NOTE_OFF` on the machine's whole state (rule R67). -/

namespace Sys2Proof.Machine

/-- Rule R67: the machine's `V_NOTE_OFF`, with its branches R68 (release 0) and R69. The premise shuts out the free quotient of
log entry 3. -/
theorem exec_vNoteOff_eq {s : State} (hsr : s.v.sr ≠ 0) :
    exec .vNoteOff s =
      if s.v.release = 0 then .next { s with v := { s.v with level := 0, stage := .off }, rsp := none }
      else .next { s with v := { s.v with rstep := s.v.level / (s.v.release * s.v.sr), stage := .release }, rsp := none } := by
  rw [exec_vNoteOff, Regs.vNoteOff, State.answer_setV, Arith.rat_exact.noteOff_eq hsr]
  by_cases hrelease : s.v.release = 0
  · rw [if_pos hrelease, if_pos hrelease]
  · rw [if_neg hrelease, if_neg hrelease]

/-- Settles O20: the row of the opcode table, and the two branches in the exact rationals. -/
theorem noteOffBranchesOnRelease : Obligations.NoteOffBranchesOnRelease := by
  intro s t a hsr
  obtain ⟨-, -, -, -, -, -, -, -, dNoteOff, -⟩ := opcodeMap.1 t a
  exact ⟨dNoteOff, exec_vNoteOff_eq hsr⟩

end Sys2Proof.Machine
end

section
/-! The two numeric setters of the LFO unit (rules R85, R87). -/

namespace Sys2Proof

/-- Rule R85: the LFO's sample rate is floored at 1, in any exact domain. -/
theorem Arith.Exact.lfo_setSr_eq {N : Type} [Field N] [LinearOrder N] [FloorRing N] {A : Arith N} (h : A.Exact)
    (l : Machine.Lfo N) (arg : N) : l.setSr A arg = { l with sr := if arg < 1 then 1 else arg } := by
  rw [Machine.Lfo.setSr, h.clampLo_eq, h.one]

namespace Machine

/-- Settles O18: the rows of the opcode table, and the next state of a command that only writes the LFO unit, with the floor of
the sample rate in the exact rationals. -/
theorem lfoSettersStoreOperand : Obligations.LfoSettersStoreOperand := by
  intro s t a
  obtain ⟨-, -, -, -, -, -, -, -, -, -, dSr, -, dFreq, -⟩ := opcodeMap.1 t a
  refine ⟨⟨dSr, ?sr⟩, ⟨dFreq, ?freq⟩⟩
  case sr => rw [exec_lSetSr, Regs.lSetSr, Arith.rat_exact.lfo_setSr_eq, State.answer_setL]
  case freq => rw [exec_lSetFreq, Regs.lSetFreq, Lfo.setFreq, State.answer_setL]

end Machine

end Sys2Proof
end

section
/-! The machine that runs is the block of `Regs.event` at the exact rationals (rules R6, R48): each of its steps, accepted words and
commands answers what the block's registers and response port then hold. So every command and every step completes, and what is
proved of the block in any exact domain holds of the machine. -/

namespace Sys2Proof.Machine

/-- A command is what the block does with the word the encoder writes for it (rules R51, R56). -/
theorem exec_eq_accept_encode (i : Instr) (s : State) :
    exec i s = s.answer (s.toRegs.accept Arith.rat s.cfg.wrap (encode i)) := by
  cases i <;> rfl

/-- Outside rule R51's table the block raises IllegalCommand, in every numeric domain (rule R54 case (a)). -/
theorem Regs.accept_of_unassigned {N : Type} (A : Arith N) (wrap : PhaseWrap) {w : CmdWord N} (h : w.op ∉ assignedOps)
    (r : Regs N) : r.accept A wrap w = r.raiseIllegal := by
  unfold Regs.accept
  split
  case h_15 => rfl
  all_goals exact absurd (by simp [*]) h

/-- Accepting a word is what the block does with it at the rationals. -/
theorem accept_eq (w : CmdWord NUM) (s : State) :
    accept w s = s.answer (s.toRegs.accept Arith.rat s.cfg.wrap w) := by
  by_cases hop : w.op ∈ assignedOps
  · obtain ⟨op, tag, a⟩ := w
    fin_cases hop <;> rfl
  · rw [Machine.accept_of_unassigned hop, Regs.accept_of_unassigned _ _ hop]

/-- An event at the pins is what the block does with it at the rationals under the state's parameters. -/
theorem onEvent_eq (e : PortEvent NUM) (s : State) :
    onEvent e s = s.answer (s.toRegs.event Arith.rat s.cfg e) := by
  cases e with
  | command w => exact accept_eq w s
  | idle => rfl
  | rst => rfl

/-- A step on a pending event. -/
theorem step_of_input {s : State} {e : PortEvent NUM} {es : List (PortEvent NUM)} (h : s.input = e :: es) :
    step s = .next { s with toRegs := (s.toRegs.event Arith.rat s.cfg e).regs,
                            rsp := (s.toRegs.event Arith.rat s.cfg e).rsp, input := es } := by
  rw [step_cons s e es h, onEvent_eq, State.answer_eq]

/-- A step is what the block does with the next event, or, with none left, with an idle port: the registers and parameters it
leaves. -/
theorem step_inv {s t : State} (h : step s = .next t) :
    ∃ e, t.toRegs = (s.toRegs.event Arith.rat s.cfg e).regs ∧ t.cfg = s.cfg := by
  cases hin : s.input with
  | nil =>
    rw [step_nil s hin] at h
    cases h
    exact ⟨.idle, rfl, rfl⟩
  | cons e es =>
    rw [step_of_input hin] at h
    cases h
    exact ⟨e, rfl, rfl⟩

theorem exec_completes (i : Instr) (s : State) : ∃ t, exec i s = .next t :=
  ⟨_, exec_eq_accept_encode i s⟩

theorem step_completes (s : State) : ∃ t, step s = .next t := by
  cases hin : s.input with
  | nil => exact ⟨_, step_nil s hin⟩
  | cons e es => exact ⟨_, step_of_input hin⟩

/-- A command leaves the parameters and what the host has pending. -/
theorem exec_frame {i : Instr} {s t : State} (h : exec i s = .next t) : t.cfg = s.cfg ∧ t.input = s.input := by
  rw [exec_eq_accept_encode] at h
  cases h
  exact ⟨rfl, rfl⟩

/-- The registers that a command leaves. -/
theorem exec_regs {i : Instr} {s t : State} (h : exec i s = .next t) :
    t.toRegs = (s.toRegs.accept Arith.rat s.cfg.wrap (encode i)).regs := by
  rw [exec_eq_accept_encode] at h
  cases h
  rfl

/-! Command sequences (rule R44). -/

/-- A command sequence that completes runs its first command, then the others. -/
theorem runCommands_cons_inv {i : Instr} {is : List Instr} {s t : State} {out : List NUM}
    (h : runCommands (i :: is) s = .next (t, out)) :
    ∃ s' out', exec i s = .next s' ∧ runCommands is s' = .next (t, out') ∧ out = s'.rsp.toList ++ out' := by
  obtain ⟨s', hexec⟩ := exec_completes i s
  rw [runCommands, hexec] at h
  cases hrun : runCommands is s' with
  | next y =>
    obtain ⟨t', out'⟩ := y
    simp only [hrun, Host.Outcome.next.injEq, Prod.mk.injEq] at h
    obtain ⟨rfl, rfl⟩ := h
    exact ⟨s', out', hexec, hrun, rfl⟩
  | fault r => simp [hrun] at h
  | refused r => simp [hrun] at h

/-- Every command sequence completes (rule R103). -/
theorem runCommands_completes (is : List Instr) (s : State) : ∃ t out, runCommands is s = .next (t, out) := by
  induction is generalizing s with
  | nil => exact ⟨s, [], rfl⟩
  | cons i is ih =>
    obtain ⟨s', hexec⟩ := exec_completes i s
    obtain ⟨t, out, hrun⟩ := ih s'
    exact ⟨t, _, runCommands_cons hexec hrun⟩

/-- What every command of a set keeps, every sequence of such commands keeps. -/
theorem runCommands_keeps {C : Instr → Prop} {P : State → Prop}
    (hexec : ∀ i s t, C i → P s → exec i s = .next t → P t) {is : List Instr} {s t : State} {out : List NUM}
    (hC : ∀ i ∈ is, C i) (hs : P s) (hrun : runCommands is s = .next (t, out)) : P t := by
  induction is generalizing s out with
  | nil => cases hrun; exact hs
  | cons i is ih =>
    obtain ⟨s', out', hi, his, -⟩ := runCommands_cons_inv hrun
    obtain ⟨hCi, hCis⟩ := List.forall_mem_cons.mp hC
    exact ih hCis (hexec i s s' hCi hs hi) his

/-- What every step keeps, any number of steps keeps. -/
theorem steps_keeps {P : State → Prop} (hstep : ∀ s t, P s → step s = .next t → P t) {n : Nat} {s t : State}
    (hs : P s) (hsteps : steps n s = .next t) : P t := by
  induction n generalizing s with
  | zero => cases hsteps; exact hs
  | succ n ih =>
    obtain ⟨s', hs'⟩ := step_completes s
    rw [steps, hs'] at hsteps
    exact ih (hstep s s' hs hs') hsteps

/-! The obligations that follow at once. -/

/-- Settles O6: the pending word is accepted, and accepting a word that decodes runs its command. -/
theorem stepRunsDecodedCommand : Obligations.StepRunsDecodedCommand := by
  intro s w es i hin hdecode
  rw [step_cons s _ es hin, onEvent, accept, hdecode]

/-- Settles O7: with nothing pending, and on an idle event, the block's registers are held. -/
theorem idleHoldsEveryRegister : Obligations.IdleHoldsEveryRegister :=
  fun s _ => ⟨step_nil s, step_of_input⟩

/-- Settles O13: a reset event is answered by the reset registers; the legality of the model's nine values is by evaluation. -/
theorem resetFromAnyState : Obligations.ResetFromAnyState :=
  ⟨fun _ _ => step_of_input, by decide +kernel⟩

/-- Settles O25: a step answers the event at the head of what is pending. -/
theorem stepIsTheBlockAtTheRationals : Obligations.StepIsTheBlockAtTheRationals :=
  fun _ _ _ => step_of_input

/-- Settles O10: totality, and each divisor as a product of positive factors. -/
theorem everyCommandCompletes : Obligations.EveryCommandCompletes := by
  refine ⟨exec_completes, step_completes, fun s hinv => ?divisors⟩
  have hv := hinv.regs.voice
  have hsr : 0 < s.v.sr := one_pos.trans_le hv.sr_ge_one
  have product (duration : NUM) (h0 : 0 ≤ duration) (hne : duration ≠ 0) : 0 < duration * s.v.sr :=
    mul_pos (h0.lt_of_ne' hne) hsr
  exact ⟨hsr, one_pos.trans_le hinv.regs.lfo_sr_ge_one, product _ hv.attack_nonneg, product _ hv.decay_nonneg,
    product _ hv.release_nonneg⟩

/-- Settles O15: the ports are the registers; the flag's bit by cases. -/
theorem statusPortsShowRegisters : Obligations.StatusPortsShowRegisters := by
  refine ⟨fun s => ?_, ⟨rfl, rfl, rfl, rfl, rfl⟩, rfl, rfl, rfl⟩
  have hflag : BitVec.ofBool s.illegal = if s.illegal then 1 else 0 := by cases s.illegal <;> rfl
  rw [Regs.status, hflag]

/-- Settles O19: the row of the opcode table, and the next state of a command that only writes the Voice unit. -/
theorem noteOnForcesAttackAndKeepsLevel : Obligations.NoteOnForcesAttackAndKeepsLevel := by
  intro s t a
  obtain ⟨-, -, -, -, -, -, -, dNoteOn, -⟩ := opcodeMap.1 t a
  refine ⟨dNoteOn, ?_⟩
  rw [exec_vNoteOn, Regs.vNoteOn, State.answer_setV, Voice.noteOn]

end Sys2Proof.Machine
end

section
/-! The phase step and the waveforms in any exact domain: the wrap as a fractional part inside the host's range (rules R74, R75; U3),
and the ranges of the waveforms (rule R73). -/

namespace Sys2Proof

section
variable {N : Type} [Field N] [LinearOrder N] [FloorRing N] {A : Arith N}

/-- The phase step of a unit whose rate is not 0. -/
theorem Arith.Exact.advance_div (h : A.Exact) (wrap : PhaseWrap) (p f : N) {sr : N} (hsr : sr ≠ 0) :
    Machine.advance A wrap p (A.div f sr) = Machine.wrapped wrap (p + f / sr) := by
  rw [h.advance_eq, h.div _ _ hsr]

/-- SQUARE is 1 or -1 at every phase. -/
theorem Arith.Exact.wave_square_cases (h : A.Exact) (p : N) :
    Machine.waveValue A .square p = 1 ∨ Machine.waveValue A .square p = -1 := by
  rw [h.wave_square]
  exact ite_eq_or_eq _ _ _

end

section
variable {N : Type} [Field N] [LinearOrder N] [IsStrictOrderedRing N] [FloorRing N]

theorem inUnit_fract (p : N) : InUnit (Int.fract p) := ⟨Int.fract_nonneg p, Int.fract_lt_one p⟩

/-- The increment of an operand in the host's range `[0, sr]` is in `[0,1]` (rules R75, R89, R122). -/
theorem increment_range {f sr : N} (hsr : 1 ≤ sr) (h0 : 0 ≤ f) (h1 : f ≤ sr) : 0 ≤ f / sr ∧ f / sr ≤ 1 :=
  have hpos : 0 < sr := one_pos.trans_le hsr
  ⟨div_nonneg h0 hpos.le, (div_le_one hpos).mpr h1⟩

namespace Machine

/-- Inside the host's range either wrap gives the fractional part (rule R74; U3): the sum is below 2, so at most 1 is taken off. -/
theorem wrapped_eq_fract (wrap : PhaseWrap) {p inc : N} (hp : InUnit p) (h0 : 0 ≤ inc) (h1 : inc ≤ 1) :
    wrapped wrap (p + inc) = Int.fract (p + inc) := by
  obtain ⟨hp0, hp1⟩ := hp
  cases wrap with
  | modular => rfl
  | literal =>
    rw [wrapped]
    split_ifs with hge
    · rw [eq_comm, Int.fract_eq_iff]
      exact ⟨by linarith, by linarith, 1, by simp⟩
    · rw [eq_comm, Int.fract_eq_self]
      exact ⟨by linarith, not_le.mp hge⟩

/-- The modular wrap leaves every phase in `[0,1)` (U3). -/
theorem inUnit_wrapped_modular (p : N) : InUnit (wrapped .modular p) := inUnit_fract p

end Machine

variable {A : Arith N}

namespace Arith.Exact

/-- Inside the host's range the phase step is the fractional part of the sum, under either value of `PHASE_WRAP`. -/
theorem advance_eq_fract (h : A.Exact) (wrap : PhaseWrap) {p inc : N} (hp : InUnit p) (h0 : 0 ≤ inc) (h1 : inc ≤ 1) :
    Machine.advance A wrap p inc = Int.fract (p + inc) := by
  rw [h.advance_eq, Machine.wrapped_eq_fract wrap hp h0 h1]

/-- The phase step of a unit at rate `sr` under an operand `f` of the host's range. -/
theorem advance_div_eq_fract (h : A.Exact) (wrap : PhaseWrap) {p f sr : N} (hp : InUnit p) (hsr : 1 ≤ sr) (h0 : 0 ≤ f)
    (h1 : f ≤ sr) : Machine.advance A wrap p (A.div f sr) = Int.fract (p + f / sr) := by
  obtain ⟨hinc0, hinc1⟩ := increment_range hsr h0 h1
  rw [h.div _ _ (one_pos.trans_le hsr).ne', h.advance_eq_fract wrap hp hinc0 hinc1]

/-- SAW is below 1 at a phase below 1. -/
theorem wave_saw_lt_one (h : A.Exact) {p : N} (hp : p < 1) : Machine.waveValue A .saw p < 1 := by
  rw [h.wave_saw]
  linarith

/-- On `[0,1)` every waveform lies in `[-1,1]` (rule R73). -/
theorem wave_range (h : A.Exact) (w : Wave) {p : N} (hp : InUnit p) :
    -1 ≤ Machine.waveValue A w p ∧ Machine.waveValue A w p ≤ 1 := by
  cases w with
  | sine => exact h.sine_range p
  | square => obtain hw | hw := h.wave_square_cases p <;> rw [hw] <;> norm_num
  | saw =>
    have hlt := h.wave_saw_lt_one hp.2
    rw [h.wave_saw] at hlt ⊢
    exact ⟨by linarith [hp.1], hlt.le⟩

end Arith.Exact

end

namespace Machine

/-- Settles O40: both wraps are the fractional part. -/
theorem literalAndModularWrapAgree : Obligations.LiteralAndModularWrapAgree := by
  intro N _ _ _ _ A h p inc hp h0 h1
  rw [h.advance_eq_fract .literal hp h0 h1, h.advance_eq_fract .modular hp h0 h1]

/-- Settles O23: the formulas of SQUARE and SAW, and for SINE what an exact domain says of its sine. -/
theorem waveformGenerator : Obligations.WaveformGenerator := by
  intro N _ _ _ _ A h
  refine ⟨fun p => ⟨h.wave_square p, h.wave_saw p⟩, h.sine_quarters, h.sine_period, fun w p => h.wave_range w,
    fun p hp => h.wave_saw_lt_one hp.2, fun p => ?outside⟩
  rw [h.wave_square, h.wave_saw]
  refine ⟨fun hp => if_pos (hp.trans (by norm_num)), fun hp => if_neg hp.not_gt, fun hp => ?_, fun hp => ?_⟩ <;> linarith

/-- The phases of one period at which the sine is rational (rule R73; T20). -/
abbrev rationalSinePhases : List NUM := [0, 1 / 12, 1 / 4, 5 / 12, 1 / 2, 7 / 12, 3 / 4, 11 / 12]

/-- Any number of half periods on from `q`, the phase has the fractional part of `q` or of `1/2 + q`. -/
theorem sineExactAt_int_div_two_add (k : ℤ) {q : NUM} (h : Int.fract q ∈ rationalSinePhases)
    (h' : Int.fract (1 / 2 + q) ∈ rationalSinePhases) : SineExactAt (k / 2 + q) := by
  apply sineExactAt_of_twelfths
  obtain ⟨m, rfl | rfl⟩ := Int.even_or_odd' k
  · rw [show ((2 * m : ℤ) : NUM) / 2 + q = m + q by push_cast; ring, Int.fract_intCast_add]
    exact h
  · rw [show ((2 * m + 1 : ℤ) : NUM) / 2 + q = m + (1 / 2 + q) by push_cast; ring, Int.fract_intCast_add]
    exact h'

/-- The rational machine's sine is the real one at every multiple of 1/4. -/
theorem sineExactAt_int_div_four (k : ℤ) : SineExactAt (k / 4) := by
  obtain ⟨m, rfl | rfl⟩ := Int.even_or_odd' k
  · rw [show ((2 * m : ℤ) : NUM) / 4 = m / 2 + 0 by push_cast; ring]
    exact sineExactAt_int_div_two_add m (by decide +kernel) (by decide +kernel)
  · rw [show ((2 * m + 1 : ℤ) : NUM) / 4 = m / 2 + 1 / 4 by push_cast; ring]
    exact sineExactAt_int_div_two_add m (by decide +kernel) (by decide +kernel)

/-- Settles O24: the two domains are exact, and each phase named has one of the eight fractional parts at which the sine is
rational. -/
theorem everyExactDomain : Obligations.EveryExactDomain :=
  ⟨Arith.rat_exact, Arith.real_exact, Arith.real_sin2pi,
    fun k => ⟨sineExactAt_int_div_four k,
      sineExactAt_int_div_two_add k (by decide +kernel) (by decide +kernel),
      sineExactAt_int_div_two_add k (by decide +kernel) (by decide +kernel)⟩,
    sin2pi_range⟩

end Machine

end Sys2Proof
end

section
/-! What a command can make of the registers, said once in any numeric domain, and what every command keeps: the register ranges of
rule R35 and the tie between the envelope's stage and its level (rules R70, R80, R81). -/

namespace Sys2Proof

namespace Machine

/-- What a command can make of the Voice unit: the operations of rules R58 to R72. -/
inductive Voice.Next {N : Type} (A : Arith N) (wrap : PhaseWrap) (v : Voice N) : Voice N → Prop
  | setSr (a : N) : Next A wrap v (v.setSr A a)
  | setWave (w : Wave) : Next A wrap v (v.setWave w)
  | setAttack (a : N) : Next A wrap v (v.setAttack A a)
  | setDecay (a : N) : Next A wrap v (v.setDecay A a)
  | setSustain (a : N) : Next A wrap v (v.setSustain A a)
  | setRelease (a : N) : Next A wrap v (v.setRelease A a)
  | setFreq (a : N) : Next A wrap v (v.setFreq a)
  | noteOn (a : N) : Next A wrap v (v.noteOn a)
  | noteOff : Next A wrap v (v.noteOff A)
  | tick (f : N) : Next A wrap v (v.tick A wrap f)

/-- What a command can make of the LFO unit: the operations of rules R85 to R88. -/
inductive Lfo.Next {N : Type} (A : Arith N) (wrap : PhaseWrap) (l : Lfo N) : Lfo N → Prop
  | setSr (a : N) : Next A wrap l (l.setSr A a)
  | setWave (w : Wave) : Next A wrap l (l.setWave w)
  | setFreq (a : N) : Next A wrap l (l.setFreq a)
  | tick : Next A wrap l (l.tick A wrap)

/-- What a command can make of the registers: it writes one unit, or it raises IllegalCommand. -/
inductive Regs.Next {N : Type} (A : Arith N) (wrap : PhaseWrap) (r : Regs N) : Regs N → Prop
  | voice {v : Voice N} (h : r.v.Next A wrap v) : Next A wrap r (r.setV v)
  | lfo {l : Lfo N} (h : r.l.Next A wrap l) : Next A wrap r (r.setL l)
  | illegal : Next A wrap r r.raiseIllegal.regs

section
variable {N : Type} (A : Arith N) (wrap : PhaseWrap)

theorem Regs.vSetWave_next (tag : Tag) (r : Regs N) : r.Next A wrap (r.vSetWave tag).regs := by
  unfold Regs.vSetWave
  split
  · exact .illegal
  · exact .voice (.setWave _)

theorem Regs.lSetWave_next (tag : Tag) (r : Regs N) : r.Next A wrap (r.lSetWave tag).regs := by
  unfold Regs.lSetWave
  split
  · exact .illegal
  · exact .lfo (.setWave _)

/-- Every command word writes one unit by one of its operations, or raises IllegalCommand (rules R51, R54). -/
theorem Regs.accept_next (w : CmdWord N) (r : Regs N) : r.Next A wrap (r.accept A wrap w).regs := by
  by_cases hop : w.op ∈ assignedOps
  · obtain ⟨op, tag, a⟩ := w
    fin_cases hop
    exacts [.voice (.setSr a), r.vSetWave_next A wrap tag, .voice (.setAttack a), .voice (.setDecay a),
      .voice (.setSustain a), .voice (.setRelease a), .voice (.setFreq a), .voice (.noteOn a), .voice .noteOff,
      .voice (.tick a), .lfo (.setSr a), r.lSetWave_next A wrap tag, .lfo (.setFreq a), .lfo .tick]
  · rw [Regs.accept_of_unassigned A wrap hop]
    exact .illegal

end

end Machine

section
variable {N : Type} [Field N] [LinearOrder N] [FloorRing N] {A : Arith N}

/-! The clamps' ranges (rule R12). -/

theorem Arith.Exact.le_clampLo (h : A.Exact) (a lo : N) : lo ≤ Machine.clampLo A a lo := by
  rw [h.clampLo_eq]
  split_ifs with hlt
  · exact le_rfl
  · exact not_lt.mp hlt

theorem Arith.Exact.zero_le_clampLo_zero (h : A.Exact) (a : N) : 0 ≤ Machine.clampLo A a A.zero := by
  rw [← h.zero]
  exact h.le_clampLo a A.zero

theorem Arith.Exact.one_le_clampLo_one (h : A.Exact) (a : N) : 1 ≤ Machine.clampLo A a A.one := by
  rw [← h.one]
  exact h.le_clampLo a A.one

theorem Arith.Exact.clamp01_range (h : A.Exact) (a : N) : 0 ≤ Machine.clamp01 A a ∧ Machine.clamp01 A a ≤ 1 := by
  rw [h.clamp01_eq]
  split_ifs with h0 h1
  · exact ⟨le_rfl, zero_le_one⟩
  · exact ⟨zero_le_one, le_rfl⟩
  · exact ⟨not_lt.mp h0, not_lt.mp h1⟩

namespace Machine

theorem Voice.Inv.sr_pos {v : Voice N} (hv : v.Inv) : 0 < v.sr := one_pos.trans_le hv.sr_ge_one

end Machine

namespace Arith.Exact

open Machine

theorem lfoNext_sr_ge_one (h : A.Exact) {wrap : PhaseWrap} {l l' : Lfo N} (hl : 1 ≤ l.sr) (hnext : l.Next A wrap l') :
    1 ≤ l'.sr := by
  cases hnext with
  | setSr a => exact h.one_le_clampLo_one a
  | _ => exact hl

/-- The reset registers meet rule R35 under legal parameters (rule R117). -/
theorem reset_inv (h : A.Exact) {p : ResetParams N} (hp : p.Legal) : (Regs.reset A.zero p).Inv := by
  obtain ⟨hsr, hattack, hdecay, hsustain0, hsustain1, hrelease, hlsr⟩ := hp
  rw [h.zero]
  exact ⟨⟨le_rfl, zero_le_one, hsr, hattack, hdecay, hrelease, hsustain0, hsustain1, le_rfl⟩, hlsr⟩

/-- The reset Voice is in stage Off at level 0 (rule R37). -/
theorem reset_envInv (h : A.Exact) (p : ResetParams N) : (Regs.reset A.zero p).v.EnvInv :=
  ⟨fun _ => h.zero, nofun⟩

variable [IsStrictOrderedRing N]

/-! The level after the envelope step stays in `[0,1]`, stage by stage (rules R77 to R81). -/

theorem envAttack_level_range (h : A.Exact) {v : Voice N} (hv : v.Inv) :
    0 ≤ (envAttack A v).level ∧ (envAttack A v).level ≤ 1 := by
  have hstep : 0 ≤ 1 / (v.attack * v.sr) := one_div_nonneg.mpr (mul_nonneg hv.attack_nonneg hv.sr_pos.le)
  rw [h.envAttack_eq hv.sr_pos.ne']
  split_ifs with hend
  · exact ⟨zero_le_one, le_rfl⟩
  · obtain ⟨-, hlt⟩ := not_or.mp hend
    exact ⟨add_nonneg hv.level_nonneg hstep, (not_le.mp hlt).le⟩

theorem envDecay_level_range (h : A.Exact) {v : Voice N} (hv : v.Inv) :
    0 ≤ (envDecay A v).level ∧ (envDecay A v).level ≤ 1 := by
  have hstep : 0 ≤ (1 - v.sustain) / (v.decay * v.sr) :=
    div_nonneg (sub_nonneg.mpr hv.sustain_le_one) (mul_nonneg hv.decay_nonneg hv.sr_pos.le)
  rw [h.envDecay_eq hv.sr_pos.ne']
  split_ifs with hend
  · exact ⟨hv.sustain_nonneg, hv.sustain_le_one⟩
  · obtain ⟨-, hgt⟩ := not_or.mp hend
    exact ⟨hv.sustain_nonneg.trans (not_le.mp hgt).le, (sub_le_self _ hstep).trans hv.level_le_one⟩

theorem envRelease_level_range (h : A.Exact) {v : Voice N} (hv : v.Inv) :
    0 ≤ (envRelease A v).level ∧ (envRelease A v).level ≤ 1 := by
  rw [h.envRelease_eq]
  split_ifs with hend
  · exact ⟨le_rfl, zero_le_one⟩
  · exact ⟨(not_le.mp hend).le, (sub_le_self _ hv.rstep_nonneg).trans hv.level_le_one⟩

theorem envelope_level_range (h : A.Exact) {v : Voice N} (hv : v.Inv) :
    0 ≤ (envelope A v).level ∧ (envelope A v).level ≤ 1 := by
  cases hst : v.stage with
  | attack => rw [envelope_attack A hst]; exact h.envAttack_level_range hv
  | decay => rw [envelope_decay A hst]; exact h.envDecay_level_range hv
  | sustain => rw [envelope_sustain A hst]; exact ⟨hv.sustain_nonneg, hv.sustain_le_one⟩
  | release => rw [envelope_release A hst]; exact h.envRelease_level_range hv
  | off => rw [envelope_off A hst, envOff, h.zero]; exact ⟨le_rfl, zero_le_one⟩

/-! Rule R35, operation by operation. -/

theorem tick_inv (h : A.Exact) (wrap : PhaseWrap) (f : N) {v : Voice N} (hv : v.Inv) : (v.tick A wrap f).Inv := by
  have hmoved : ({ v with phase := advance A wrap v.phase (A.div f v.sr) } : Voice N).Inv := { hv with }
  obtain ⟨h0, h1⟩ := h.envelope_level_range hmoved
  rw [Voice.tick, envelope_frame]
  exact { hv with level_nonneg := h0, level_le_one := h1 }

theorem noteOff_inv (h : A.Exact) {v : Voice N} (hv : v.Inv) : (v.noteOff A).Inv := by
  rw [h.noteOff_eq hv.sr_pos.ne']
  split_ifs
  · exact { hv with level_nonneg := le_rfl, level_le_one := zero_le_one }
  · exact { hv with rstep_nonneg := div_nonneg hv.level_nonneg (mul_nonneg hv.release_nonneg hv.sr_pos.le) }

theorem voiceNext_inv (h : A.Exact) {wrap : PhaseWrap} {v v' : Voice N} (hv : v.Inv) (hnext : v.Next A wrap v') :
    v'.Inv := by
  cases hnext with
  | setSr a => exact { hv with sr_ge_one := h.one_le_clampLo_one a }
  | setWave w => exact { hv with }
  | setAttack a => exact { hv with attack_nonneg := h.zero_le_clampLo_zero a }
  | setDecay a => exact { hv with decay_nonneg := h.zero_le_clampLo_zero a }
  | setSustain a =>
    exact { hv with sustain_nonneg := (h.clamp01_range a).1, sustain_le_one := (h.clamp01_range a).2 }
  | setRelease a => exact { hv with release_nonneg := h.zero_le_clampLo_zero a }
  | setFreq a => exact { hv with }
  | noteOn a => exact { hv with }
  | noteOff => exact h.noteOff_inv hv
  | tick f => exact h.tick_inv wrap f hv

theorem regsNext_inv (h : A.Exact) {wrap : PhaseWrap} {r r' : Regs N} (hr : r.Inv) (hnext : r.Next A wrap r') :
    r'.Inv := by
  cases hnext with
  | voice hv => exact ⟨h.voiceNext_inv hr.voice hv, hr.lfo_sr_ge_one⟩
  | lfo hl => exact ⟨hr.voice, h.lfoNext_sr_ge_one hr.lfo_sr_ge_one hl⟩
  | illegal => exact ⟨hr.voice, hr.lfo_sr_ge_one⟩

/-- Every event keeps rule R35, whatever came before it. -/
theorem event_inv (h : A.Exact) {c : Params N} (hc : c.reset.Legal) (e : PortEvent N) {r : Regs N} (hr : r.Inv) :
    (r.event A c e).regs.Inv := by
  cases e with
  | command w => exact h.regsNext_inv hr (r.accept_next A c.wrap w)
  | idle => exact hr
  | rst => exact h.reset_inv hc

theorem events_inv (h : A.Exact) {c : Params N} (hc : c.reset.Legal) (es : List (PortEvent N)) {r : Regs N}
    (hr : r.Inv) : (Regs.events A c es r).1.Inv := by
  induction es generalizing r with
  | nil => exact hr
  | cons e es ih => exact ih (h.event_inv hc e hr)

/-! The envelope's invariant, operation by operation. -/

theorem envelope_envInv (h : A.Exact) {v : Voice N} (hv : v.Inv) (henv : v.EnvInv) : (envelope A v).EnvInv := by
  cases hst : v.stage with
  | attack =>
    have hstage := h.envelope_stage_of_attack hv.sr_pos.ne' hst
    constructor <;> intro hne <;> rw [hstage] at hne <;> split_ifs at hne
  | decay =>
    have hstage := h.envelope_stage_of_decay hv.sr_pos.ne' hst
    constructor <;> intro hne <;> rw [hstage] at hne <;> split_ifs at hne
  | sustain =>
    have hstage := envelope_stage_of_sustain A hst
    constructor <;> intro hne <;> rw [hstage] at hne <;> cases hne
  | release =>
    rw [envelope_release A hst, h.envRelease_eq]
    split_ifs with hend
    · exact ⟨fun _ => rfl, nofun⟩
    · refine ⟨fun hoff => absurd (hst.symm.trans hoff) (by decide), fun _ _ => henv.release_falling hst ?_⟩
      exact (not_le.mp hend).trans_le (sub_le_self _ hv.rstep_nonneg)
  | off =>
    rw [envelope_off A hst, envOff, h.zero]
    exact ⟨fun _ => rfl, fun _ hpos => absurd hpos (lt_irrefl 0)⟩

theorem noteOff_envInv (h : A.Exact) {v : Voice N} (hv : v.Inv) : (v.noteOff A).EnvInv := by
  rw [h.noteOff_eq hv.sr_pos.ne']
  split_ifs with hrelease
  · exact ⟨fun _ => rfl, nofun⟩
  · have hpos : 0 < v.release * v.sr := mul_pos (hv.release_nonneg.lt_of_ne' hrelease) hv.sr_pos
    exact ⟨nofun, fun _ hlevel => div_pos hlevel hpos⟩

theorem voiceNext_envInv (h : A.Exact) {wrap : PhaseWrap} {v v' : Voice N} (hv : v.Inv) (henv : v.EnvInv)
    (hnext : v.Next A wrap v') : v'.EnvInv := by
  cases hnext with
  | noteOn a => exact ⟨nofun, nofun⟩
  | noteOff => exact h.noteOff_envInv hv
  | tick f => exact h.envelope_envInv { hv with } { henv with }
  | _ => exact { henv with }

theorem regsNext_envInv (h : A.Exact) {wrap : PhaseWrap} {r r' : Regs N} (hr : r.Inv) (henv : r.v.EnvInv)
    (hnext : r.Next A wrap r') : r'.v.EnvInv := by
  cases hnext with
  | voice hv => exact h.voiceNext_envInv hr.voice henv hv
  | lfo hl => exact henv
  | illegal => exact henv

theorem event_envInv (h : A.Exact) (c : Params N) (e : PortEvent N) {r : Regs N} (hr : r.Inv) (henv : r.v.EnvInv) :
    (r.event A c e).regs.v.EnvInv := by
  cases e with
  | command w => exact h.regsNext_envInv hr henv (r.accept_next A c.wrap w)
  | idle => exact henv
  | rst => exact h.reset_envInv c.reset

end Arith.Exact

end

namespace Machine

/-! The machine that runs. -/

theorem step_keeps_inv (s t : State) (hs : s.Inv) (h : step s = .next t) : t.Inv := by
  obtain ⟨e, hregs, hcfg⟩ := step_inv h
  exact ⟨by rw [hregs]; exact Arith.rat_exact.event_inv hs.reset_legal e hs.regs, by rw [hcfg]; exact hs.reset_legal⟩

theorem exec_keeps_inv (i : Instr) (s t : State) (hs : s.Inv) (h : exec i s = .next t) : t.Inv := by
  refine ⟨?_, by rw [(exec_frame h).1]; exact hs.reset_legal⟩
  rw [exec_regs h]
  exact Arith.rat_exact.regsNext_inv hs.regs (Regs.accept_next ..)

theorem State.resetWith_inv {c : Params NUM} (hc : c.reset.Legal) : (State.resetWith c).Inv :=
  ⟨Arith.rat_exact.reset_inv hc, hc⟩

/-- Settles O35: one step as an event of the block in the exact rationals; sequences and runs by induction from reset. -/
theorem stepKeepsRegisterInvariant : Obligations.StepKeepsRegisterInvariant := by
  refine ⟨step_keeps_inv, fun c is t out hc hrun => ?commands, fun c n es t hc hsteps => ?steps⟩
  case commands =>
    exact runCommands_keeps (C := fun _ => True) (fun i s t _ => exec_keeps_inv i s t) (fun _ _ => trivial)
      (State.resetWith_inv hc) hrun
  case steps =>
    refine steps_keeps step_keeps_inv ?_ hsteps
    exact ⟨(State.resetWith_inv hc).regs, hc⟩

/-- Settles O36: one step as an event of the block in the exact rationals. -/
theorem stepKeepsEnvelopeInvariant : Obligations.StepKeepsEnvelopeInvariant := by
  intro s t hs henv h
  obtain ⟨e, hregs, -⟩ := step_inv h
  rw [hregs]
  exact Arith.rat_exact.event_envInv s.cfg e hs.regs henv

/-- Settles O28: one event, and any sequence of events from reset. -/
theorem exactBlockKeepsRegisterInvariant : Obligations.ExactBlockKeepsRegisterInvariant := by
  intro N _ _ _ _ A h c hc
  exact ⟨fun e r => h.event_inv hc e, fun es => h.events_inv hc es (h.reset_inv hc)⟩

/-- Settles O14: both invariants at reset, in the exact rationals. -/
theorem resetMeetsInvariants : Obligations.ResetMeetsInvariants :=
  fun c hc => ⟨State.resetWith_inv hc, Arith.rat_exact.reset_envInv c.reset⟩

end Machine

end Sys2Proof
end

section
/-! What a command leaves unchanged and what it does not read: the registers outside rule R15's column "written by", the other unit
(rules R88, R113), the target frequency (rules R19, R123), and the flag of rule R21. -/

namespace Sys2Proof.Machine

section
variable {N : Type} (A : Arith N) (wrap : PhaseWrap) (f : N) (v : Voice N)

/-- The envelope step does not read the phase (rules R77 to R81). -/
theorem envelope_phase (p : N) : envelope A { v with phase := p } = { envelope A v with phase := p } := by
  unfold envelope envAttack envDecay envSustain envRelease envOff
  cases v.stage <;> dsimp only <;> split_ifs <;> rfl

/-- One sample is the envelope step and the phase step, neither of which reads what the other writes (rule R72). -/
theorem Voice.tick_eq :
    v.tick A wrap f = { envelope A v with phase := advance A wrap v.phase (A.div f v.sr) } := by
  rw [tick, envelope_phase]

@[simp] theorem Voice.tick_level : (v.tick A wrap f).level = (envelope A v).level := by rw [tick_eq]
@[simp] theorem Voice.tick_stage : (v.tick A wrap f).stage = (envelope A v).stage := by rw [tick_eq]

/-! The registers that a sample and a note-off leave, one by one (rules R67, R72). -/

@[simp] theorem Voice.tick_phase : (v.tick A wrap f).phase = advance A wrap v.phase (A.div f v.sr) := by rw [tick_frame]
@[simp] theorem Voice.tick_rstep : (v.tick A wrap f).rstep = v.rstep := by rw [tick_frame]
@[simp] theorem Voice.tick_freq : (v.tick A wrap f).freq = v.freq := by rw [tick_frame]
@[simp] theorem Voice.tick_sr : (v.tick A wrap f).sr = v.sr := by rw [tick_frame]
@[simp] theorem Voice.tick_wave : (v.tick A wrap f).wave = v.wave := by rw [tick_frame]
@[simp] theorem Voice.tick_attack : (v.tick A wrap f).attack = v.attack := by rw [tick_frame]
@[simp] theorem Voice.tick_decay : (v.tick A wrap f).decay = v.decay := by rw [tick_frame]
@[simp] theorem Voice.tick_sustain : (v.tick A wrap f).sustain = v.sustain := by rw [tick_frame]
@[simp] theorem Voice.tick_release : (v.tick A wrap f).release = v.release := by rw [tick_frame]

@[simp] theorem Voice.noteOff_phase : (v.noteOff A).phase = v.phase := by rw [noteOff_frame]
@[simp] theorem Voice.noteOff_freq : (v.noteOff A).freq = v.freq := by rw [noteOff_frame]
@[simp] theorem Voice.noteOff_sr : (v.noteOff A).sr = v.sr := by rw [noteOff_frame]
@[simp] theorem Voice.noteOff_wave : (v.noteOff A).wave = v.wave := by rw [noteOff_frame]
@[simp] theorem Voice.noteOff_attack : (v.noteOff A).attack = v.attack := by rw [noteOff_frame]
@[simp] theorem Voice.noteOff_decay : (v.noteOff A).decay = v.decay := by rw [noteOff_frame]
@[simp] theorem Voice.noteOff_sustain : (v.noteOff A).sustain = v.sustain := by rw [noteOff_frame]
@[simp] theorem Voice.noteOff_release : (v.noteOff A).release = v.release := by rw [noteOff_frame]

end

/-! The two waveform commands: each writes its waveform, or raises IllegalCommand on the reserved tag (rules R59, R86). -/

theorem Regs.vSetWave_cases {N : Type} (tag : Tag) (r : Regs N) :
    (∃ w, r.vSetWave tag = (r.setV (r.v.setWave w)).complete) ∨ tag = 3 ∧ r.vSetWave tag = r.raiseIllegal := by
  unfold Regs.vSetWave
  cases htag : Wave.ofTag tag with
  | none => exact .inr ⟨(Wave.ofTag_eq_none_iff tag).mp htag, rfl⟩
  | some w => exact .inl ⟨w, rfl⟩

theorem Regs.lSetWave_cases {N : Type} (tag : Tag) (r : Regs N) :
    (∃ w, r.lSetWave tag = (r.setL (r.l.setWave w)).complete) ∨ tag = 3 ∧ r.lSetWave tag = r.raiseIllegal := by
  unfold Regs.lSetWave
  cases htag : Wave.ofTag tag with
  | none => exact .inr ⟨(Wave.ofTag_eq_none_iff tag).mp htag, rfl⟩
  | some w => exact .inl ⟨w, rfl⟩

/-- Settles O30: command by command, each writes what the state table says and nothing else. -/
theorem onlyListedCommandsWriteEachRegister : Obligations.OnlyListedCommandsWriteEachRegister := by
  intro i s t h
  cases i with
  | vSetWave tag =>
    rw [exec_vSetWave] at h
    obtain ⟨w, hset⟩ | ⟨rfl, hset⟩ := s.toRegs.vSetWave_cases tag
    · rw [hset] at h; cases h; simp [Voice.setWave]
    · rw [hset] at h; cases h; simp
  | lSetWave tag =>
    rw [exec_lSetWave] at h
    obtain ⟨w, hset⟩ | ⟨rfl, hset⟩ := s.toRegs.lSetWave_cases tag
    · rw [hset] at h; cases h; simp [Lfo.setWave]
    · rw [hset] at h; cases h; simp
  | vSetSr a => cases h; simp [Regs.vSetSr, Voice.setSr]
  | vSetAttack a => cases h; simp [Regs.vSetAttack, Voice.setAttack]
  | vSetDecay a => cases h; simp [Regs.vSetDecay, Voice.setDecay]
  | vSetSustain a => cases h; simp [Regs.vSetSustain, Voice.setSustain]
  | vSetRelease a => cases h; simp [Regs.vSetRelease, Voice.setRelease]
  | vSetFreq a => cases h; simp [Regs.vSetFreq, Voice.setFreq]
  | vNoteOn a => cases h; simp [Regs.vNoteOn, Voice.noteOn]
  | vNoteOff => cases h; simp [Regs.vNoteOff]
  | vStep f => cases h; simp [Regs.vStep]
  | lSetSr a => cases h; simp [Regs.lSetSr, Lfo.setSr]
  | lSetFreq a => cases h; simp [Regs.lSetFreq, Lfo.setFreq]
  | lStep => cases h; simp [Regs.lStep, Lfo.tick]

/-! The two units. -/

/-- Settles O31: each command is an operation on its own unit; the waveform commands by whether the tag names a waveform. -/
theorem unitsAreIndependent : Obligations.UnitsAreIndependent := by
  intro i s v' l'
  refine ⟨fun hvoice => ?voice, fun hlfo => ?lfo⟩
  case voice =>
    cases i with
    | vSetWave tag =>
      simp only [exec_vSetWave, Regs.vSetWave]
      cases Wave.ofTag tag <;> exact ⟨_, rfl, rfl, rfl⟩
    | lSetSr | lSetWave | lSetFreq | lStep => cases hvoice
    | _ => exact ⟨_, rfl, rfl, rfl⟩
  case lfo =>
    cases i with
    | lSetWave tag =>
      simp only [exec_lSetWave, Regs.lSetWave]
      cases Wave.ofTag tag <;> exact ⟨_, rfl, rfl, rfl⟩
    | lSetSr | lSetFreq | lStep => exact ⟨_, rfl, rfl, rfl⟩
    | _ => cases hlfo

/-! The target frequency. -/

section
variable {N : Type} (A : Arith N) (wrap : PhaseWrap) (v : Voice N)

/-- The envelope step does not read the target frequency (rules R77 to R81). -/
theorem envelope_setFreq (g : N) : envelope A (v.setFreq g) = (envelope A v).setFreq g := by
  unfold envelope envAttack envDecay envSustain envRelease envOff Voice.setFreq
  cases v.stage <;> dsimp only <;> split_ifs <;> rfl

/-- One sample does not read the target frequency: it works at its own operand (rules R19, R72). -/
theorem Voice.tick_setFreq (f g : N) : (v.setFreq g).tick A wrap f = (v.tick A wrap f).setFreq g := by
  rw [Voice.tick_eq, Voice.tick_eq, envelope_setFreq]
  rfl

theorem Voice.output_setFreq (f g : N) : (v.setFreq g).output A wrap f = v.output A wrap f := by
  unfold Voice.output
  rw [Voice.tick_setFreq]
  rfl

theorem Voice.noteOff_setFreq (g : N) : (v.setFreq g).noteOff A = (v.noteOff A).setFreq g := by
  unfold Voice.noteOff Voice.setFreq
  split <;> rfl

end

/-- A command run from two states that differ in the target frequency alone leaves two such states, with one response. -/
theorem exec_setFreq (i : Instr) (s : State) (f : NUM) :
    ∃ t g, exec i s = .next t ∧ exec i { s with v := s.v.setFreq f } = .next { t with v := t.v.setFreq g } := by
  cases i with
  | vSetFreq a => exact ⟨_, a, rfl, rfl⟩
  | vNoteOn a => exact ⟨_, a, rfl, rfl⟩
  | vNoteOff =>
    refine ⟨_, f, rfl, ?_⟩
    rw [exec_vNoteOff, Regs.vNoteOff, Voice.noteOff_setFreq]
    rfl
  | vStep x =>
    refine ⟨_, f, rfl, ?_⟩
    rw [exec_vStep, Regs.vStep, Voice.tick_setFreq, Voice.output_setFreq]
    rfl
  | vSetWave tag =>
    simp only [exec_vSetWave, Regs.vSetWave]
    cases Wave.ofTag tag <;> exact ⟨_, f, rfl, rfl⟩
  | lSetWave tag =>
    simp only [exec_lSetWave, Regs.lSetWave]
    cases Wave.ofTag tag <;> exact ⟨_, f, rfl, rfl⟩
  | _ => exact ⟨_, f, rfl, rfl⟩

/-- Settles O32, by induction on the commands: the two runs stay a pair that differs in the target frequency alone. -/
theorem targetFrequencyIsInert : Obligations.TargetFrequencyIsInert := by
  intro is
  induction is with
  | nil => exact fun s f => ⟨s, [], f, rfl, rfl⟩
  | cons i is ih =>
    intro s f
    obtain ⟨s', f', hexec, hexec'⟩ := exec_setFreq i s f
    obtain ⟨t, out, g, hrun, hrun'⟩ := ih s' f'
    exact ⟨t, _, g, runCommands_cons hexec hrun, (runCommands_cons hexec' hrun' :)⟩

/-! A running release. -/

/-- In stage Release the level and the stage after one sample depend on the level and the release step alone (rule R80). -/
theorem Voice.tick_release_congr {N : Type} (A : Arith N) (wrap : PhaseWrap) (f : N) {v w : Voice N}
    (hv : v.stage = .release) (hw : w.stage = .release) (hlevel : w.level = v.level) (hrstep : w.rstep = v.rstep) :
    (w.tick A wrap f).level = (v.tick A wrap f).level ∧ (w.tick A wrap f).stage = (v.tick A wrap f).stage := by
  rw [Voice.tick_level, Voice.tick_level, Voice.tick_stage, Voice.tick_stage, envelope_release A hv, envelope_release A hw]
  simp only [envRelease, hlevel, hrstep]
  split
  · exact ⟨rfl, rfl⟩
  · exact ⟨rfl, hw.trans hv.symm⟩

/-- Settles O33: none of the three commands writes the level, the release step or the stage. -/
theorem runningReleaseKeepsItsStep : Obligations.RunningReleaseKeepsItsStep := by
  intro s a f i hstage hi
  obtain ⟨u, hexec, hcfg, hu, hlevel, hrstep⟩ : ∃ u, exec i s = .next u ∧ u.cfg = s.cfg ∧ u.v.stage = .release ∧
      u.v.level = s.v.level ∧ u.v.rstep = s.v.rstep := by
    obtain rfl | rfl | rfl := hi <;> exact ⟨_, rfl, rfl, hstage, rfl, rfl⟩
  obtain ⟨hlevel', hstage'⟩ := Voice.tick_release_congr Arith.rat s.cfg.wrap f hstage hu hlevel hrstep
  refine ⟨_, _, _, _, rfl, runCommands_cons hexec rfl, ?_, ?_, (u.v.tick_rstep ..).trans hrstep, s.v.tick_rstep ..⟩
  · rw [hcfg]
    exact hlevel'
  · rw [hcfg]
    exact hstage'

/-! Idempotence (rule R41). -/

/-- A second `V_NOTE_OFF` with no sample between finds the level, the release time and the rate that the first one found. -/
theorem Voice.noteOff_noteOff {N : Type} (A : Arith N) (v : Voice N) : (v.noteOff A).noteOff A = v.noteOff A := by
  unfold Voice.noteOff
  cases h : A.eq v.release A.zero <;> simp [h]

/-- A command that returns no sample is idempotent. -/
theorem exec_idempotent (i : Instr) (s : State) (hi : i.returnsSample = false) :
    ∃ t, exec i s = .next t ∧ exec i t = .next t := by
  cases i with
  | vNoteOff =>
    refine ⟨_, rfl, ?_⟩
    rw [exec_vNoteOff, Regs.vNoteOff]
    simp only [Regs.vNoteOff, Regs.complete_regs, Regs.setV_v, Voice.noteOff_noteOff]
    rfl
  | vSetWave tag =>
    simp only [exec_vSetWave, Regs.vSetWave]
    cases Wave.ofTag tag <;> exact ⟨_, rfl, rfl⟩
  | lSetWave tag =>
    simp only [exec_lSetWave, Regs.lSetWave]
    cases Wave.ofTag tag <;> exact ⟨_, rfl, rfl⟩
  | vStep | lStep => cases hi
  | _ => exact ⟨_, rfl, rfl⟩

/-- Settles O34: the counterexample for `V_STEP` is half a period at rate 1 from reset, the phase going from 0 to 1/2 and then
back to 0. -/
theorem nonStepCommandsAreIdempotent : Obligations.NonStepCommandsAreIdempotent := by
  refine ⟨fun i s _ hv hl => exec_idempotent i s ?_, 1 / 2, State.reset, _, rfl, fun h => ?_⟩
  · rw [Bool.eq_false_iff, Ne, i.returnsSample_iff]
    exact not_or.mpr ⟨not_exists.mpr hv, hl⟩
  · have hphase := congrArg (fun s : State => s.v.phase) (Host.Outcome.next.inj h)
    exact absurd hphase (by decide +kernel)

/-! The flag of rule R21. -/

theorem Regs.vSetWave_illegal {N : Type} (tag : Tag) (r : Regs N) :
    (r.vSetWave tag).regs.illegal = true ↔ r.illegal = true ∨ tag = 3 := by
  rw [← Wave.ofTag_eq_none_iff, Regs.vSetWave]
  cases Wave.ofTag tag <;> simp

theorem Regs.lSetWave_illegal {N : Type} (tag : Tag) (r : Regs N) :
    (r.lSetWave tag).regs.illegal = true ↔ r.illegal = true ∨ tag = 3 := by
  rw [← Wave.ofTag_eq_none_iff, Regs.lSetWave]
  cases Wave.ofTag tag <;> simp

/-- An accepted word leaves the flag set exactly where it was set or the word is illegal (rules R54, R104). -/
theorem Regs.accept_illegal {N : Type} (A : Arith N) (wrap : PhaseWrap) (w : CmdWord N) (r : Regs N) :
    (r.accept A wrap w).regs.illegal = true ↔ r.illegal = true ∨ w.Illegal := by
  by_cases hop : w.op ∈ assignedOps
  · have hillegal : w.Illegal ↔ (w.op = 0x02 ∨ w.op = 0x82) ∧ w.wave = 3 := or_iff_right (not_not_intro hop)
    rw [hillegal]
    obtain ⟨op, tag, a⟩ := w
    fin_cases hop
    on_goal 12 => simpa [Regs.accept] using r.lSetWave_illegal tag
    on_goal 2 => simpa [Regs.accept] using r.vSetWave_illegal tag
    all_goals exact (or_iff_left fun h => absurd h.1 (by dsimp only; decide)).symm
  · rw [Regs.accept_of_unassigned A wrap hop]
    exact iff_of_true rfl (.inr (.inl hop))

/-- Settles O9, by the kinds of event. -/
theorem illegalFlagIsSticky : Obligations.IllegalFlagIsSticky := by
  intro s t e es hin h
  rw [step_of_input hin] at h
  cases h
  cases e with
  | command w => simpa [Regs.event] using s.toRegs.accept_illegal Arith.rat s.cfg.wrap w
  | idle => simp [Regs.event]
  | rst => exact ⟨fun _ => rfl, fun hne => absurd rfl hne⟩

/-- A well-formed command leaves the flag as it was (rule R54; U5). -/
theorem exec_wf_illegal {i : Instr} {s t : State} (hwf : i.wf = true) (h : exec i s = .next t) :
    t.illegal = s.illegal := by
  obtain ⟨-, -, -, -, -, -, -, -, -, -, -, -, -, -, -, hwrite, -⟩ := onlyListedCommandsWriteEachRegister i s t h
  by_contra hne
  obtain rfl | rfl := hwrite hne <;> exact absurd hwf (by decide)

/-- Settles O11: every sequence completes, and each of its commands keeps the flag. -/
theorem wellFormedSequencesStayGood : Obligations.WellFormedSequencesStayGood := by
  intro is s hwf
  obtain ⟨t, out, hrun⟩ := runCommands_completes is s
  refine ⟨t, out, hrun, ?_⟩
  exact runCommands_keeps (P := fun u => u.illegal = s.illegal)
    (fun i u u' hi hu h => (exec_wf_illegal hi h).trans hu) hwf rfl hrun

end Sys2Proof.Machine
end

section
/-! One sample of either unit: the whole next state (rules R72, R88), the sample over the reals, the range of the output (rule R82),
and the phase inside and outside the host's range (rules R75, R89). -/

namespace Sys2Proof

namespace Arith.Exact

open Machine

section
variable {N : Type} [Field N] [LinearOrder N] [FloorRing N] {A : Arith N}

/-- Rule R82: the waveform, times the level after the envelope step, times 1/5. -/
theorem output_eq (h : A.Exact) (wrap : PhaseWrap) (f : N) (v : Voice N) :
    v.output A wrap f = waveValue A v.wave v.phase * (v.tick A wrap f).level * (1 / 5) := by
  rw [Voice.output, h.mul, h.mul, h.fifth]

/-- In stage Off the sample is 0 (rule R81). -/
theorem output_of_off (h : A.Exact) (wrap : PhaseWrap) (f : N) {v : Voice N} (hoff : v.stage = .off) :
    v.output A wrap f = 0 := by
  rw [h.output_eq, Voice.tick_level, envelope_off A hoff, envOff, h.zero]
  ring

end

section
variable {N : Type} [Field N] [LinearOrder N] [IsStrictOrderedRing N] [FloorRing N] {A : Arith N}

/-- Rules R82, R125: the waveform and the level are at most 1 in magnitude, so the sample is at most 1/5. -/
theorem abs_output_le (h : A.Exact) (wrap : PhaseWrap) (f : N) {v : Voice N} (hv : v.Inv) (hp : InUnit v.phase) :
    |v.output A wrap f| ≤ 1 / 5 := by
  have hwave : |waveValue A v.wave v.phase| ≤ 1 := abs_le.mpr (h.wave_range v.wave hp)
  have hlevel : |(v.tick A wrap f).level| ≤ 1 :=
    abs_le.mpr ⟨by linarith [(h.tick_inv wrap f hv).level_nonneg], (h.tick_inv wrap f hv).level_le_one⟩
  rw [h.output_eq, abs_mul, abs_mul, abs_of_pos (show (0 : N) < 1 / 5 by norm_num)]
  exact mul_le_of_le_one_left (by norm_num) (mul_le_one₀ hwave (abs_nonneg _) hlevel)

/-- Rule R75: an operand in the host's range keeps the Voice's phase in `[0,1)`. -/
theorem inUnit_voice_phase (h : A.Exact) (wrap : PhaseWrap) {f : N} {v : Voice N} (hsr : 1 ≤ v.sr) (hp : InUnit v.phase)
    (h0 : 0 ≤ f) (h1 : f ≤ v.sr) : InUnit (v.tick A wrap f).phase := by
  rw [Voice.tick_phase, h.advance_div_eq_fract wrap hp hsr h0 h1]
  exact inUnit_fract _

/-- Rule R89: a frequency in the host's range keeps the LFO's phase in `[0,1)`. -/
theorem inUnit_lfo_phase (h : A.Exact) (wrap : PhaseWrap) {l : Lfo N} (hsr : 1 ≤ l.sr) (hp : InUnit l.phase)
    (h0 : 0 ≤ l.freq) (h1 : l.freq ≤ l.sr) : InUnit (l.tick A wrap).phase := by
  rw [Lfo.tick, h.advance_div_eq_fract wrap hp hsr h0 h1]
  exact inUnit_fract _

/-- U3: the modular phase step leaves every phase in `[0,1)`. -/
theorem inUnit_advance_modular (h : A.Exact) (p inc : N) : InUnit (advance A .modular p inc) := by
  rw [h.advance_eq]
  exact inUnit_wrapped_modular _

end

end Arith.Exact

namespace Machine

/-- The machine's `V_STEP`: it writes the Voice unit and drives a response. -/
theorem exec_vStep_eq (f : NUM) (s : State) :
    exec (.vStep f) s =
      .next { s with v := s.v.tick Arith.rat s.cfg.wrap f, rsp := some (s.v.output Arith.rat s.cfg.wrap f) } := rfl

/-- The machine's `L_STEP`: it writes the LFO unit and drives a response. -/
theorem exec_lStep_eq (s : State) :
    exec .lStep s = .next { s with l := s.l.tick Arith.rat s.cfg.wrap, rsp := some (s.l.output Arith.rat) } := rfl

/-! The obligations on one sample. -/

/-- Settles O21: the waveform, the phase and the envelope step each as the formula of its rule, by the waveform, the value of
`PHASE_WRAP` and the stage. -/
theorem vStepComputesOneSample : Obligations.VStepComputesOneSample := by
  intro s tag f hsr
  obtain ⟨-, -, -, -, -, -, -, -, -, dStep, -⟩ := opcodeMap.1 tag f
  refine ⟨dStep, ?_⟩
  intro w p env phase
  have hwave : waveValue Arith.rat s.v.wave s.v.phase = w := by
    subst w
    cases s.v.wave with
    | sine => rfl
    | square => exact Arith.rat_exact.wave_square _
    | saw => exact Arith.rat_exact.wave_saw _
  have hphase : advance Arith.rat s.cfg.wrap s.v.phase (Arith.rat.div f s.v.sr) = phase := by
    rw [Arith.rat_exact.advance_div _ _ _ hsr]
    subst phase
    cases s.cfg.wrap <;> rfl
  have henv : ((envelope Arith.rat s.v).level, (envelope Arith.rat s.v).stage) = env := by
    subst env
    cases hst : s.v.stage with
    | attack =>
      rw [envelope_attack _ hst, Arith.rat_exact.envAttack_eq hsr, ite_or]
      split_ifs <;> simp [hst]
    | decay =>
      rw [envelope_decay _ hst, Arith.rat_exact.envDecay_eq hsr, ite_or]
      split_ifs <;> simp [hst]
    | sustain => rw [envelope_sustain _ hst, envSustain, hst]
    | release =>
      rw [envelope_release _ hst, Arith.rat_exact.envRelease_eq]
      split_ifs <;> simp [hst]
    | off => rw [envelope_off _ hst, envOff, hst]; rfl
  rw [exec_vStep_eq, Arith.rat_exact.output_eq, hwave, Voice.tick_frame, hphase]
  simp only [Voice.tick_level, Voice.tick_stage, ← henv]

/-- Settles O22: the waveform and the phase as the formulas of their rules. -/
theorem lStepReturnsBareWaveform : Obligations.LStepReturnsBareWaveform := by
  intro s tag a hsr
  obtain ⟨-, -, -, -, -, -, -, -, -, -, -, -, -, dStep⟩ := opcodeMap.1 tag a
  refine ⟨dStep, ?_⟩
  intro w p phase
  have hwave : s.l.output Arith.rat = w := by
    subst w
    rw [Lfo.output]
    cases s.l.wave with
    | sine => rfl
    | square => exact Arith.rat_exact.wave_square _
    | saw => exact Arith.rat_exact.wave_saw _
  have hphase : advance Arith.rat s.cfg.wrap s.l.phase (Arith.rat.div s.l.freq s.l.sr) = phase := by
    rw [Arith.rat_exact.advance_div _ _ _ hsr]
    subst phase
    cases s.cfg.wrap <;> rfl
  rw [exec_lStep_eq, hwave, Lfo.tick, hphase]

/-- Settles O27: the reals are an exact domain whose waveforms are the real ones. -/
theorem realBlockComputesSamples : Obligations.RealBlockComputesSamples := by
  intro c r t f pitch depth vs ls
  have hvoice : vs = (r.setV (r.v.tick Arith.real c.wrap f)).respond (r.v.output Arith.real c.wrap f) := rfl
  have hlfo : ls = (r.setL (r.l.tick Arith.real c.wrap)).respond (r.l.output Arith.real) := rfl
  have hm : r.l.output Arith.real = waveReal r.l.wave r.l.phase := waveValue_real _ _
  refine ⟨?_, fun hsr => ?_, rfl, ?_, fun hsr => ?_, rfl, hm, ?_⟩
  · simp [hvoice, Arith.real_exact.output_eq, waveValue_real]
  · simp [hvoice, Arith.real_exact.advance_div _ _ _ hsr]
  · simp [hlfo, hm]
  · simp [hlfo, Lfo.tick, Arith.real_exact.advance_div _ _ _ hsr]
  · rw [← hm]
    rfl

/-- Settles O29: the range of rules R75 and R89 under either wrap, and the modular wrap without it. -/
theorem exactBlockPhases : Obligations.ExactBlockPhases := by
  intro N _ _ _ _ A h c r t f hr vs ls
  refine ⟨h.inUnit_voice_phase c.wrap hr.voice.sr_ge_one, h.inUnit_lfo_phase c.wrap hr.lfo_sr_ge_one, fun hwrap => ?_⟩
  have hv : vs.v.phase = advance A c.wrap r.v.phase (A.div f r.v.sr) := Voice.tick_phase ..
  have hl : ls.l.phase = advance A c.wrap r.l.phase (A.div r.l.freq r.l.sr) := rfl
  rw [hv, hl, hwrap]
  exact ⟨h.inUnit_advance_modular _ _, h.inUnit_advance_modular _ _⟩

/-- Settles O39: the bound in the exact rationals, and stage Off. -/
theorem voiceOutputRange : Obligations.VoiceOutputRange := by
  intro s f hs
  refine ⟨_, _, exec_vStep_eq f s, rfl, fun hp => ?_, Arith.rat_exact.output_of_off _ f⟩
  exact abs_le.mp (Arith.rat_exact.abs_output_le _ f hs.regs.voice hp)

/-! The phases along a command sequence in the host's range. -/

/-- What every command keeps whose operand or frequency is in the host's range, every sequence keeps whose step commands keep to
it. -/
theorem runCommands_keeps_of_inRange {P : State → Prop}
    (hexec : ∀ i s t, (∀ f, i = .vStep f → 0 ≤ f ∧ f ≤ s.v.sr) → (i = .lStep → 0 ≤ s.l.freq ∧ s.l.freq ≤ s.l.sr) →
      P s → exec i s = .next t → P t)
    {is : List Instr} {s : State} (hrange : StepsInRange is s) (hs : P s) :
    ∃ t out, runCommands is s = .next (t, out) ∧ P t := by
  induction is generalizing s with
  | nil => exact ⟨s, [], rfl, hs⟩
  | cons i is ih =>
    obtain ⟨hvoice, hlfo, hrest⟩ := hrange
    obtain ⟨s', hi⟩ := exec_completes i s
    obtain ⟨t, out, hrun, ht⟩ := ih (hrest s' hi) (hexec i s s' hvoice hlfo hs hi)
    exact ⟨t, _, runCommands_cons hi hrun, ht⟩

/-- The rate stays at least 1: `V_SET_SR` alone writes it, and clamps (rules R15, R58). -/
theorem exec_voice_sr_ge_one {i : Instr} {s t : State} (hsr : 1 ≤ s.v.sr) (h : exec i s = .next t) : 1 ≤ t.v.sr := by
  obtain ⟨-, -, -, -, -, hwrite, -⟩ := onlyListedCommandsWriteEachRegister i s t h
  by_cases hsame : t.v.sr = s.v.sr
  · rw [hsame]
    exact hsr
  · obtain ⟨a, rfl⟩ := hwrite hsame
    cases h
    exact Arith.rat_exact.one_le_clampLo_one a

/-- The Voice's phase stays in `[0,1)`: `V_STEP` alone writes it (rule R15), in the host's range inside `[0,1)`. -/
theorem exec_voice_inUnit {i : Instr} {s t : State} (hsr : 1 ≤ s.v.sr) (hp : InUnit s.v.phase)
    (hrange : ∀ f, i = .vStep f → 0 ≤ f ∧ f ≤ s.v.sr) (h : exec i s = .next t) : InUnit t.v.phase := by
  obtain ⟨hwrite, -⟩ := onlyListedCommandsWriteEachRegister i s t h
  by_cases hsame : t.v.phase = s.v.phase
  · rw [hsame]
    exact hp
  · obtain ⟨f, rfl⟩ := hwrite hsame
    obtain ⟨h0, h1⟩ := hrange f rfl
    cases h
    exact Arith.rat_exact.inUnit_voice_phase _ hsr hp h0 h1

/-- The LFO's rate stays at least 1: `L_SET_SR` alone writes it, and clamps (rules R15, R85). -/
theorem exec_lfo_sr_ge_one {i : Instr} {s t : State} (hsr : 1 ≤ s.l.sr) (h : exec i s = .next t) : 1 ≤ t.l.sr := by
  obtain ⟨-, -, -, -, -, -, -, -, -, -, -, -, -, hwrite, -⟩ := onlyListedCommandsWriteEachRegister i s t h
  by_cases hsame : t.l.sr = s.l.sr
  · rw [hsame]
    exact hsr
  · obtain ⟨a, rfl⟩ := hwrite hsame
    cases h
    exact Arith.rat_exact.one_le_clampLo_one a

/-- The LFO's phase stays in `[0,1)`: `L_STEP` alone writes it (rule R15), in the host's range inside `[0,1)`. -/
theorem exec_lfo_inUnit {i : Instr} {s t : State} (hsr : 1 ≤ s.l.sr) (hp : InUnit s.l.phase)
    (hrange : i = .lStep → 0 ≤ s.l.freq ∧ s.l.freq ≤ s.l.sr) (h : exec i s = .next t) : InUnit t.l.phase := by
  obtain ⟨-, -, -, -, -, -, -, -, -, -, -, hwrite, -⟩ := onlyListedCommandsWriteEachRegister i s t h
  by_cases hsame : t.l.phase = s.l.phase
  · rw [hsame]
    exact hp
  · obtain rfl := hwrite hsame
    obtain ⟨h0, h1⟩ := hrange rfl
    cases h
    exact Arith.rat_exact.inUnit_lfo_phase _ hsr hp h0 h1

/-! The literal wrap outside the host's range (rules R75, R89). -/

/-- A negative increment from below 1 is not wrapped. -/
theorem advance_literal_of_lt {p f sr : NUM} (hsr : 1 ≤ sr) (hp : p + f / sr < 1) :
    advance Arith.rat .literal p (Arith.rat.div f sr) = p + f / sr := by
  rw [Arith.rat_exact.advance_div _ _ _ (one_pos.trans_le hsr).ne', wrapped_literal, if_neg hp.not_ge]

/-- From 1 on exactly 1 is taken off. -/
theorem advance_literal_of_ge {p f sr : NUM} (hsr : 1 ≤ sr) (hp : 1 ≤ p + f / sr) :
    advance Arith.rat .literal p (Arith.rat.div f sr) = p + f / sr - 1 := by
  rw [Arith.rat_exact.advance_div _ _ _ (one_pos.trans_le hsr).ne', wrapped_literal, if_pos hp]

/-- Settles O37: the step and the sequences by the fractional part, the two clauses outside the range by the literal wrap's
branches. -/
theorem voicePhaseInvariant : Obligations.VoicePhaseInvariant := by
  refine ⟨fun s f hsr hp h0 h1 => ?inside, fun is s hsr hp hrange => ?along, fun s f hwrap hsr hf hp => ?falls,
    fun s f hwrap hsr hf hp => ?grows⟩
  case inside => exact ⟨_, exec_vStep_eq f s, Arith.rat_exact.inUnit_voice_phase _ hsr hp h0 h1⟩
  case along =>
    obtain ⟨t, out, hrun, -, ht⟩ := runCommands_keeps_of_inRange (P := fun u => 1 ≤ u.v.sr ∧ InUnit u.v.phase)
      (fun i u u' hvoice _ ⟨husr, hup⟩ h => ⟨exec_voice_sr_ge_one husr h, exec_voice_inUnit husr hup hvoice h⟩)
      hrange ⟨hsr, hp⟩
    exact ⟨t, out, hrun, ht⟩
  case falls =>
    have hinc : f / s.v.sr < 0 := div_neg_of_neg_of_pos hf (one_pos.trans_le hsr)
    have hphase : (s.v.tick Arith.rat s.cfg.wrap f).phase = s.v.phase + f / s.v.sr := by
      rw [Voice.tick_phase, hwrap, advance_literal_of_lt hsr (by linarith)]
    exact ⟨_, exec_vStep_eq f s, hphase, by rw [hphase]; linarith⟩
  case grows =>
    have hinc : 1 < f / s.v.sr := (one_lt_div (one_pos.trans_le hsr)).mpr hf
    have hphase : (s.v.tick Arith.rat s.cfg.wrap f).phase = s.v.phase + f / s.v.sr - 1 := by
      rw [Voice.tick_phase, hwrap, advance_literal_of_ge hsr (by linarith)]
    exact ⟨_, exec_vStep_eq f s, hphase, by rw [hphase]; linarith⟩

/-- Settles O38: as for the Voice, with the ranges of the waveforms for the samples. -/
theorem lfoPhaseInvariantAndRange : Obligations.LfoPhaseInvariantAndRange := by
  have hexact := Arith.rat_exact
  refine ⟨fun s hsr hp h0 h1 => ?inside, fun is s hsr hp hrange => ?along, fun s hwrap hsr hf hp => ?falls⟩
  case inside =>
    obtain ⟨hlow, hhigh⟩ := hexact.wave_range s.l.wave hp
    refine ⟨_, _, exec_lStep_eq s, rfl, hexact.inUnit_lfo_phase _ hsr hp h0 h1, hlow, hhigh, fun hw => ?_, fun hw => ?_⟩
    · rw [Lfo.output, hw]
      exact hexact.wave_square_cases _
    · rw [Lfo.output, hw]
      exact hexact.wave_saw_lt_one hp.2
  case along =>
    obtain ⟨t, out, hrun, -, ht⟩ := runCommands_keeps_of_inRange (P := fun u => 1 ≤ u.l.sr ∧ InUnit u.l.phase)
      (fun i u u' _ hlfo ⟨husr, hup⟩ h => ⟨exec_lfo_sr_ge_one husr h, exec_lfo_inUnit husr hup hlfo h⟩)
      hrange ⟨hsr, hp⟩
    exact ⟨t, out, hrun, ht⟩
  case falls =>
    have hinc : s.l.freq / s.l.sr < 0 := div_neg_of_neg_of_pos hf (one_pos.trans_le hsr)
    have hphase : (s.l.tick Arith.rat s.cfg.wrap).phase = s.l.phase - |s.l.freq| / s.l.sr := by
      rw [Lfo.tick, hwrap, advance_literal_of_lt hsr (by linarith), abs_of_neg hf]
      ring
    refine ⟨_, _, exec_lStep_eq s, rfl, hphase, fun hneg => ⟨fun hw => ?_, fun hw => ?_⟩⟩
    · rw [Lfo.output, hw, hexact.wave_saw]
      exact ⟨rfl, by linarith⟩
    · rw [Lfo.output, hw, hexact.wave_square, if_pos (by linarith)]

end Machine

end Sys2Proof
end

section
/-! The command word's bits (rules R49, R52, R56), as a number and under a finite format, and the block at such pins. -/

namespace Sys2Proof

/-- Settles O1: each word is the record of its fields, a row of the opcode table; the last one's opcode is in no row. -/
theorem writtenWordsDecode : Obligations.WrittenWordsDecode :=
  ⟨rfl, rfl, rfl, rfl, rfl, rfl, rfl, rfl⟩

/-- Reading what the encoder writes gives the instruction back, whatever its operand. -/
theorem decode_encode (i : Instr) : decode (encode i) = .ok i := by
  cases i <;> rfl

/-- A word that decodes is the encoder's in every field that its command uses (rules R52, R53). -/
theorem encode_of_decode {w : CmdWord NUM} {i : Instr} (h : decode w = .ok i) :
    encode i = ⟨w.op, if i.usesWave then w.wave else 0, if i.usesArg then w.arg else 0⟩ := by
  by_cases hop : w.op ∈ assignedOps
  · obtain ⟨op, tag, a⟩ := w
    fin_cases hop <;> cases h <;> rfl
  · rw [decode_of_unassigned hop] at h
    cases h

/-- Settles O2: the two directions, by the instruction and by the row of the opcode table. -/
theorem decodeEncodeAgree : Obligations.DecodeEncodeAgree :=
  ⟨fun i _ => decode_encode i, fun _ _ => encode_of_decode⟩

/-! The word as a number (rules R49, R56). -/

/-- The three fields of the layout do not overlap: each is read back (rule R49). -/
theorem CmdWord.ofBits_toBits {nbits n : Nat} (w : CmdWord NUM) (h : w.toBits n < 2 ^ nbits) :
    CmdWord.ofBits nbits (w.toBits n) = ⟨w.op, w.wave, (n : NUM)⟩ := by
  have hop := w.op.isLt
  have hwave := w.wave.isLt
  have hfield : w.toBits n / 1024 = n := by unfold CmdWord.toBits; omega
  have hop' : BitVec.ofNat 8 (w.toBits n) = w.op :=
    BitVec.eq_of_toNat_eq (by rw [BitVec.toNat_ofNat, CmdWord.toBits]; omega)
  have hwave' : BitVec.ofNat 2 (w.toBits n / 256) = w.wave :=
    BitVec.eq_of_toNat_eq (by rw [BitVec.toNat_ofNat, CmdWord.toBits]; omega)
  rw [CmdWord.ofBits, Nat.mod_eq_of_lt h]
  rw [hfield, hop', hwave']

/-- The number of `cmd[9:0]` (rule R56). -/
theorem CmdWord.lo10_toNat {N : Type} (w : CmdWord N) : w.lo10.toNat = w.wave.toNat * 256 + w.op.toNat := by
  have hop := w.op.isLt
  unfold CmdWord.lo10
  rw [BitVec.toNat_append, ← Nat.shiftLeft_add_eq_or_of_lt (by omega), Nat.shiftLeft_eq]

/-- The low ten bits and the operand give the word back. -/
theorem CmdWord.ofLo10_lo10 {N : Type} (w : CmdWord N) : CmdWord.ofLo10 w.lo10 w.arg = w := by
  have hop : w.lo10.extractLsb' 0 8 = w.op := by
    apply BitVec.eq_of_getLsbD_eq
    intro i hi
    rw [BitVec.getLsbD_extractLsb', CmdWord.lo10_getLsbD]
    simp [hi]
  have hwave : w.lo10.extractLsb' 8 2 = w.wave := by
    apply BitVec.eq_of_getLsbD_eq
    intro i hi
    rw [BitVec.getLsbD_extractLsb', CmdWord.lo10_getLsbD]
    simp [hi]
  rw [CmdWord.ofLo10, hop, hwave]

/-- Settles O3: the word as a number, and its low ten bits. -/
theorem commandWordBits : Obligations.CommandWordBits :=
  ⟨fun _ _ => CmdWord.ofBits_toBits, fun w => ⟨w.lo10_toNat, w.ofLo10_lo10⟩⟩

/-! The word under a finite format. -/

/-- A word on the wires is its three fields side by side (rule R49). -/
theorem append_extractLsb'_fields {n : Nat} (cmd : BitVec (n + 10)) :
    cmd.extractLsb' 10 n ++ (cmd.extractLsb' 8 2 ++ cmd.extractLsb' 0 8 : BitVec 10) = cmd := by
  apply BitVec.eq_of_getLsbD_eq
  intro i hi
  rw [BitVec.getLsbD_append, BitVec.getLsbD_append, BitVec.getLsbD_extractLsb', BitVec.getLsbD_extractLsb',
    BitVec.getLsbD_extractLsb']
  split_ifs with h10 h8
  · simp [h8]
  · simp [show i - 8 < 2 by omega, show 8 + (i - 8) = i by omega]
  · simp [show i - 10 < n by omega, show 10 + (i - 10) = i by omega]

/-- Where every pattern is the one of its value, every word of bits is the word of what is read from it. -/
theorem CmdWord.pattern_ofPattern {N : Type} (F : NumFormat N) (hF : ∀ p, F.bits (F.value p) = p)
    (cmd : BitVec (F.width + 10)) : (CmdWord.ofPattern F cmd).pattern F = cmd := by
  unfold CmdWord.pattern CmdWord.ofPattern CmdWord.lo10
  rw [hF]
  exact append_extractLsb'_fields cmd

/-- An infinite domain has no format: its values would have different patterns, of which there are finitely many. -/
theorem isEmpty_numFormat (N : Type) [Infinite N] : IsEmpty (NumFormat N) := by
  refine ⟨fun F => ?_⟩
  have hinj : Function.Injective fun x => (F.bits x).toFin := by
    intro x y hxy
    rw [← F.value_bits x, ← F.value_bits y, BitVec.eq_of_toFin_eq hxy]
  exact not_injective_infinite_finite _ hinj

/-- Settles O57: the fields of a pattern, its number, and the counting argument for the two exact domains. -/
theorem finiteFormatCommandWord : Obligations.FiniteFormatCommandWord :=
  ⟨fun _ F w => ⟨w.pattern_op F, w.pattern_wave F, w.pattern_arg F, w.pattern_toNat F, w.ofPattern_pattern F⟩,
    fun _ F cmd hF => CmdWord.pattern_ofPattern F hF cmd, isEmpty_numFormat NUM, isEmpty_numFormat ℝ⟩

namespace Machine

/-- The two waveform commands, `V_NOTE_OFF` and `L_STEP` do not read the operand (rule R53). -/
theorem Regs.accept_ignores_arg {N : Type} (A : Arith N) (wrap : PhaseWrap) {op : Op}
    (hop : op ∈ ([0x02, 0x09, 0x82, 0x8A] : List Op)) (tag : Tag) (a a' : N) (r : Regs N) :
    r.accept A wrap ⟨op, tag, a⟩ = r.accept A wrap ⟨op, tag, a'⟩ := by
  fin_cases hop <;> rfl

/-- The bits of `op` and `wave` are among the low ten. -/
theorem extractLsb'_of_lo10_eq {n : Nat} {cmd cmd' : BitVec n} (h : cmd.extractLsb' 0 10 = cmd'.extractLsb' 0 10) :
    cmd.extractLsb' 0 8 = cmd'.extractLsb' 0 8 ∧ cmd.extractLsb' 8 2 = cmd'.extractLsb' 8 2 := by
  have bit (i : Nat) (hi : i < 10) : cmd.getLsbD i = cmd'.getLsbD i := by
    simpa [hi] using congrArg (fun b : BitVec 10 => b.getLsbD i) h
  constructor
  · apply BitVec.eq_of_getLsbD_eq
    intro i hi
    simpa [hi] using bit i (by omega)
  · apply BitVec.eq_of_getLsbD_eq
    intro i hi
    simpa [hi] using bit (8 + i) (by omega)

/-- Settles O58: the pins read the bits as a word, accept it, and drive patterns that are read back. -/
theorem finitePortsRunTheBlock : Obligations.FinitePortsRunTheBlock := by
  intro N F A wrap r
  refine ⟨fun w => Regs.acceptBits_pattern F A wrap w r, fun cmd hop => ?unassigned, fun cmd cmd' hlo hop => ?ignored,
    fun y => ⟨Option.map_eq_none_iff, Reply.rspBits_value F y⟩, rfl, rfl, Regs.statusBits_value F r⟩
  case unassigned =>
    rw [Regs.acceptBits, Regs.accept_of_unassigned A wrap hop, Regs.raiseIllegal_eq]
  case ignored =>
    obtain ⟨hop', hwave'⟩ := extractLsb'_of_lo10_eq hlo
    rw [Regs.acceptBits, Regs.acceptBits, CmdWord.ofPattern, CmdWord.ofPattern, ← hop', ← hwave']
    exact Regs.accept_ignores_arg A wrap hop _ _ _ r

end Machine

end Sys2Proof
end

section
/-! The block over the reals on rational data (rules R6, R11): each operation commutes with the embedding of the rationals, where no
divisor is zero; so does the sample, where the rational sine is the real one. -/

namespace Sys2Proof.Machine

section
variable (v : Voice NUM) (l : Lfo NUM) (a : NUM)

/-! The shared operations. -/

theorem div_ratCast {x y : NUM} (hy : y ≠ 0) : Arith.real.div (x : ℝ) (y : ℝ) = ((Arith.rat.div x y : NUM) : ℝ) := by
  rw [Arith.real_exact.div _ _ (Rat.cast_ne_zero.mpr hy), Arith.rat_exact.div _ _ hy, Rat.cast_div]

theorem clampLo_ratCast (lo : NUM) : clampLo Arith.real (a : ℝ) (lo : ℝ) = ((clampLo Arith.rat a lo : NUM) : ℝ) := by
  rw [Arith.real_exact.clampLo_eq, Arith.rat_exact.clampLo_eq, apply_ite (Rat.cast : NUM → ℝ)]
  simp only [Rat.cast_lt]

theorem clampLo_zero_ratCast :
    clampLo Arith.real (a : ℝ) Arith.real.zero = ((clampLo Arith.rat a Arith.rat.zero : NUM) : ℝ) := by
  rw [← clampLo_ratCast, Arith.rat_exact.zero, Arith.real_exact.zero, Rat.cast_zero]

theorem clampLo_one_ratCast :
    clampLo Arith.real (a : ℝ) Arith.real.one = ((clampLo Arith.rat a Arith.rat.one : NUM) : ℝ) := by
  rw [← clampLo_ratCast, Arith.rat_exact.one, Arith.real_exact.one, Rat.cast_one]

theorem clamp01_ratCast : clamp01 Arith.real (a : ℝ) = ((clamp01 Arith.rat a : NUM) : ℝ) := by
  rw [Arith.real_exact.clamp01_eq, Arith.rat_exact.clamp01_eq, apply_ite (Rat.cast : NUM → ℝ),
    apply_ite (Rat.cast : NUM → ℝ)]
  norm_cast

theorem wrapped_ratCast (wrap : PhaseWrap) (p : NUM) : wrapped wrap (p : ℝ) = ((wrapped wrap p : NUM) : ℝ) := by
  cases wrap with
  | literal =>
    rw [wrapped_literal, apply_ite (Rat.cast : NUM → ℝ), wrapped]
    norm_cast
  | modular => exact (Rat.cast_fract p).symm

theorem advance_ratCast (wrap : PhaseWrap) (p inc : NUM) :
    advance Arith.real wrap (p : ℝ) (inc : ℝ) = ((advance Arith.rat wrap p inc : NUM) : ℝ) := by
  rw [Arith.real_exact.advance_eq, Arith.rat_exact.advance_eq, ← wrapped_ratCast, Rat.cast_add]

/-- SQUARE and SAW at every phase, SINE where the rational sine is the real one (log entry 4). -/
theorem waveValue_ratCast {w : Wave} {p : NUM} (hsine : w = .sine → SineExactAt p) :
    waveValue Arith.real w (p : ℝ) = ((waveValue Arith.rat w p : NUM) : ℝ) := by
  cases w with
  | sine => exact (hsine rfl).symm
  | square =>
    have hhalf : (p : ℝ) < 1 / 2 ↔ p < 1 / 2 := by
      rw [← Rat.cast_lt (K := ℝ)]
      norm_num
    rw [Arith.real_exact.wave_square, Arith.rat_exact.wave_square]
    simp only [hhalf]
    split_ifs <;> simp
  | saw =>
    rw [Arith.real_exact.wave_saw, Arith.rat_exact.wave_saw]
    push_cast
    rfl

/-! The setters (rules R58 to R64, R85 to R87) and `V_NOTE_ON`. -/

theorem Voice.map_setSr : (v.map Rat.cast).setSr Arith.real (a : ℝ) = (v.setSr Arith.rat a).map Rat.cast := by
  rw [setSr, clampLo_one_ratCast]
  rfl

theorem Voice.map_setAttack :
    (v.map Rat.cast).setAttack Arith.real (a : ℝ) = (v.setAttack Arith.rat a).map Rat.cast := by
  rw [setAttack, clampLo_zero_ratCast]
  rfl

theorem Voice.map_setDecay : (v.map Rat.cast).setDecay Arith.real (a : ℝ) = (v.setDecay Arith.rat a).map Rat.cast := by
  rw [setDecay, clampLo_zero_ratCast]
  rfl

theorem Voice.map_setSustain :
    (v.map Rat.cast).setSustain Arith.real (a : ℝ) = (v.setSustain Arith.rat a).map Rat.cast := by
  rw [setSustain, clamp01_ratCast]
  rfl

theorem Voice.map_setRelease :
    (v.map Rat.cast).setRelease Arith.real (a : ℝ) = (v.setRelease Arith.rat a).map Rat.cast := by
  rw [setRelease, clampLo_zero_ratCast]
  rfl

theorem Lfo.map_setSr : (l.map Rat.cast).setSr Arith.real (a : ℝ) = (l.setSr Arith.rat a).map Rat.cast := by
  rw [setSr, clampLo_one_ratCast]
  rfl

end

/-! The envelope step, stage by stage (rules R77 to R81), and `V_NOTE_OFF` (rule R67). -/

section
variable {v : Voice NUM}

/-- The Voice's rate over the reals is not 0 either. -/
theorem Voice.map_sr_ne_zero (hsr : v.sr ≠ 0) : (v.map (Rat.cast : NUM → ℝ)).sr ≠ 0 := Rat.cast_ne_zero.mpr hsr

theorem envRelease_ratCast : envRelease Arith.real (v.map Rat.cast) = (envRelease Arith.rat v).map Rat.cast := by
  have hends : (v.map (Rat.cast : NUM → ℝ)).level - (v.map Rat.cast).rstep ≤ (0 : ℝ) ↔ v.level - v.rstep ≤ 0 := by
    simp only [Voice.map]
    norm_cast
  rw [Arith.real_exact.envRelease_eq, Arith.rat_exact.envRelease_eq]
  simp only [hends]
  split_ifs <;> simp [Voice.map]

variable (hsr : v.sr ≠ 0)
include hsr

theorem envAttack_ratCast : envAttack Arith.real (v.map Rat.cast) = (envAttack Arith.rat v).map Rat.cast := by
  have hends : ((v.map (Rat.cast : NUM → ℝ)).attack = 0 ∨
      (v.map Rat.cast).level + 1 / ((v.map Rat.cast).attack * (v.map Rat.cast).sr) ≥ (1 : ℝ)) ↔
      (v.attack = 0 ∨ v.level + 1 / (v.attack * v.sr) ≥ 1) := by
    simp only [Voice.map]
    norm_cast
  rw [Arith.real_exact.envAttack_eq (Voice.map_sr_ne_zero hsr), Arith.rat_exact.envAttack_eq hsr]
  simp only [hends]
  split_ifs <;> simp [Voice.map]

theorem envDecay_ratCast : envDecay Arith.real (v.map Rat.cast) = (envDecay Arith.rat v).map Rat.cast := by
  have hends : ((v.map (Rat.cast : NUM → ℝ)).decay = 0 ∨
      (v.map Rat.cast).level - (1 - (v.map Rat.cast).sustain) / ((v.map Rat.cast).decay * (v.map Rat.cast).sr) ≤
        ((v.map Rat.cast).sustain : ℝ)) ↔
      (v.decay = 0 ∨ v.level - (1 - v.sustain) / (v.decay * v.sr) ≤ v.sustain) := by
    simp only [Voice.map]
    norm_cast
  rw [Arith.real_exact.envDecay_eq (Voice.map_sr_ne_zero hsr), Arith.rat_exact.envDecay_eq hsr]
  simp only [hends]
  split_ifs <;> simp [Voice.map]

theorem envelope_ratCast : envelope Arith.real (v.map Rat.cast) = (envelope Arith.rat v).map Rat.cast := by
  have hstage : (v.map (Rat.cast : NUM → ℝ)).stage = v.stage := rfl
  cases hst : v.stage with
  | attack => rw [envelope_attack _ hst, envelope_attack _ (hstage.trans hst), envAttack_ratCast hsr]
  | decay => rw [envelope_decay _ hst, envelope_decay _ (hstage.trans hst), envDecay_ratCast hsr]
  | sustain => rw [envelope_sustain _ hst, envelope_sustain _ (hstage.trans hst)]; rfl
  | release => rw [envelope_release _ hst, envelope_release _ (hstage.trans hst), envRelease_ratCast]
  | off =>
    rw [envelope_off _ hst, envelope_off _ (hstage.trans hst), envOff, envOff, Arith.real_exact.zero, Arith.rat_exact.zero,
      ← Rat.cast_zero]
    rfl

theorem Voice.map_noteOff : (v.map Rat.cast).noteOff Arith.real = (v.noteOff Arith.rat).map Rat.cast := by
  have hzero : (v.map (Rat.cast : NUM → ℝ)).release = 0 ↔ v.release = 0 := Rat.cast_eq_zero
  rw [Arith.real_exact.noteOff_eq (Voice.map_sr_ne_zero hsr), Arith.rat_exact.noteOff_eq hsr]
  simp only [hzero]
  split_ifs <;> simp [Voice.map]

/-! One sample of either unit (rules R72, R88). -/

theorem Voice.map_tick (wrap : PhaseWrap) (f : NUM) :
    (v.map Rat.cast).tick Arith.real wrap (f : ℝ) = (v.tick Arith.rat wrap f).map Rat.cast := by
  have hphase : advance Arith.real wrap (v.map (Rat.cast : NUM → ℝ)).phase
      (Arith.real.div (f : ℝ) (v.map (Rat.cast : NUM → ℝ)).sr) =
      ((advance Arith.rat wrap v.phase (Arith.rat.div f v.sr) : NUM) : ℝ) := by
    rw [← advance_ratCast, ← div_ratCast hsr]
    rfl
  rw [Voice.tick_eq, Voice.tick_eq, hphase, envelope_ratCast hsr]
  rfl

theorem Voice.map_output (wrap : PhaseWrap) (f : NUM) (hsine : v.wave = .sine → SineExactAt v.phase) :
    (v.map Rat.cast).output Arith.real wrap (f : ℝ) = ((v.output Arith.rat wrap f : NUM) : ℝ) := by
  rw [Arith.real_exact.output_eq, Arith.rat_exact.output_eq, Voice.map_tick hsr, Rat.cast_mul, Rat.cast_mul,
    ← waveValue_ratCast hsine, Rat.cast_div, Rat.cast_one, Rat.cast_ofNat]
  rfl

end

theorem Lfo.map_tick {l : Lfo NUM} (hsr : l.sr ≠ 0) (wrap : PhaseWrap) :
    (l.map Rat.cast).tick Arith.real wrap = (l.tick Arith.rat wrap).map Rat.cast := by
  have hphase : advance Arith.real wrap (l.phase : ℝ) (Arith.real.div (l.freq : ℝ) (l.sr : ℝ)) =
      ((advance Arith.rat wrap l.phase (Arith.rat.div l.freq l.sr) : NUM) : ℝ) := by
    rw [← advance_ratCast, ← div_ratCast hsr]
  exact congrArg (fun p => { l.map (Rat.cast : NUM → ℝ) with phase := p }) hphase

/-! The whole block. -/

section
variable {r : Regs NUM}

theorem Regs.map_vSetWave (tag : Tag) :
    ((r.map (Rat.cast : NUM → ℝ)).vSetWave tag).regs = (r.vSetWave tag).regs.map Rat.cast := by
  unfold Regs.vSetWave
  cases Wave.ofTag tag <;> rfl

theorem Regs.map_lSetWave (tag : Tag) :
    ((r.map (Rat.cast : NUM → ℝ)).lSetWave tag).regs = (r.lSetWave tag).regs.map Rat.cast := by
  unfold Regs.lSetWave
  cases Wave.ofTag tag <;> rfl

theorem Regs.map_setV (v : Voice NUM) (w : Voice ℝ) (h : w = v.map Rat.cast) :
    (r.map (Rat.cast : NUM → ℝ)).setV w = (r.setV v).map Rat.cast := by
  rw [h]
  rfl

theorem Regs.map_setL (l : Lfo NUM) (m : Lfo ℝ) (h : m = l.map Rat.cast) :
    (r.map (Rat.cast : NUM → ℝ)).setL m = (r.setL l).map Rat.cast := by
  rw [h]
  rfl

/-- An accepted word with a rational operand leaves over the reals the registers that it leaves over the rationals. -/
theorem Regs.accept_map_regs (hv : r.v.sr ≠ 0) (hl : r.l.sr ≠ 0) (wrap : PhaseWrap) (w : CmdWord NUM) :
    ((r.map Rat.cast).accept Arith.real wrap ⟨w.op, w.wave, (w.arg : ℝ)⟩).regs =
      (r.accept Arith.rat wrap w).regs.map Rat.cast := by
  by_cases hop : w.op ∈ assignedOps
  · obtain ⟨op, tag, a⟩ := w
    fin_cases hop
    exacts [map_setV _ _ (r.v.map_setSr a), map_vSetWave tag, map_setV _ _ (r.v.map_setAttack a),
      map_setV _ _ (r.v.map_setDecay a), map_setV _ _ (r.v.map_setSustain a), map_setV _ _ (r.v.map_setRelease a), rfl, rfl,
      map_setV _ _ (Voice.map_noteOff hv), map_setV _ _ (Voice.map_tick hv wrap a), map_setL _ _ (r.l.map_setSr a),
      map_lSetWave tag, rfl, map_setL _ _ (Lfo.map_tick hl wrap)]
  · rw [Regs.accept_of_unassigned _ _ hop, Regs.accept_of_unassigned _ _ (w := ⟨w.op, w.wave, (w.arg : ℝ)⟩) hop]
    rfl

/-- It also returns the same sample, where each unit with SINE selected stands at a phase at which the rational sine is exact. -/
theorem Regs.accept_map_rsp (hv : r.v.sr ≠ 0) (hvsine : r.v.wave = .sine → SineExactAt r.v.phase)
    (hlsine : r.l.wave = .sine → SineExactAt r.l.phase) (wrap : PhaseWrap) (w : CmdWord NUM) :
    ((r.map Rat.cast).accept Arith.real wrap ⟨w.op, w.wave, (w.arg : ℝ)⟩).rsp =
      (r.accept Arith.rat wrap w).rsp.map Rat.cast := by
  by_cases hop : w.op ∈ assignedOps
  · obtain ⟨op, tag, a⟩ := w
    fin_cases hop
    -- by their places in the table: `L_STEP`, `L_SET_WAVE`, `V_STEP`, `V_SET_WAVE`
    on_goal 14 => exact congrArg some (waveValue_ratCast hlsine)
    on_goal 12 => simp [Regs.accept]
    on_goal 10 => exact congrArg some (Voice.map_output hv wrap a hvsine)
    on_goal 2 => simp [Regs.accept]
    all_goals rfl
  · rw [Regs.accept_of_unassigned _ _ hop, Regs.accept_of_unassigned _ _ (w := ⟨w.op, w.wave, (w.arg : ℝ)⟩) hop]
    rfl

end

/-- Settles O26, by the kinds of event. -/
theorem realBlockExtendsRationalBlock : Obligations.RealBlockExtendsRationalBlock := by
  intro c e r hr real
  have hv : r.v.sr ≠ 0 := hr.voice.sr_pos.ne'
  have hl : r.l.sr ≠ 0 := (one_pos.trans_le hr.lfo_sr_ge_one).ne'
  cases e with
  | command w =>
    exact ⟨Regs.accept_map_regs hv hl c.wrap w, fun hvsine hlsine => Regs.accept_map_rsp hv hvsine hlsine c.wrap w⟩
  | idle => exact ⟨rfl, fun _ _ => rfl⟩
  | rst =>
    have hzero : Arith.real.zero = ((Arith.rat.zero : NUM) : ℝ) := by
      rw [Arith.real_exact.zero, Arith.rat_exact.zero, Rat.cast_zero]
    refine ⟨?_, fun _ _ => rfl⟩
    change Regs.reset Arith.real.zero _ = (Regs.reset Arith.rat.zero c.reset).map Rat.cast
    rw [hzero]
    rfl

end Sys2Proof.Machine
end

section
/-! The envelope over many samples (rules R70, R71, R76 to R81): a run of samples iterates the envelope step, which ramps the level in
stages Attack, Decay and Release until the stage ends, and then rests. -/

namespace Sys2Proof.Machine

/-- No number of envelope steps reads the phase. -/
theorem envelope_iterate_phase (n : Nat) (v : Voice NUM) (p : NUM) :
    (envelope Arith.rat)^[n] { v with phase := p } = { (envelope Arith.rat)^[n] v with phase := p } := by
  induction n generalizing v with
  | zero => rfl
  | succ n ih => rw [Function.iterate_succ_apply, envelope_phase, ih, Function.iterate_succ_apply]

/-- A run of samples iterates the envelope step on the Voice, whatever the operands: these move the phase alone. -/
theorem runCommands_vSteps (fs : List NUM) (s : State) :
    ∃ t out p, runCommands (fs.map .vStep) s = .next (t, out) ∧
      t.v = { (envelope Arith.rat)^[fs.length] s.v with phase := p } := by
  induction fs generalizing s with
  | nil => exact ⟨s, [], s.v.phase, rfl, rfl⟩
  | cons f fs ih =>
    obtain ⟨t, out, p, hrun, hv⟩ := ih { s with v := s.v.tick Arith.rat s.cfg.wrap f, rsp := _ }
    refine ⟨t, _, p, runCommands_cons (exec_vStep_eq f s) hrun, ?_⟩
    rw [hv, Voice.tick_eq, envelope_iterate_phase, List.length_cons, Function.iterate_succ_apply]

/-! The ramps: what one sample makes of a level on the ramp, the level along it, and the sample that ends it. -/

section
variable {v : Voice NUM} {n : Nat}

/-- A level that each sample moves along `ramp`, with the stage kept. -/
theorem envelope_iterate_ramp (ramp : Nat → NUM) (h0 : v.level = ramp 0)
    (hstep : ∀ k < n, envelope Arith.rat { v with level := ramp k } = { v with level := ramp (k + 1) }) :
    (envelope Arith.rat)^[n] v = { v with level := ramp n } := by
  induction n with
  | zero => rw [Function.iterate_zero_apply, ← h0]
  | succ n ih => rw [Function.iterate_succ_apply', ih fun k hk => hstep k (by omega), hstep n n.lt_succ_self]

section
variable (hattack : 0 < v.attack) (hsr : 0 < v.sr) (hst : v.stage = .attack)
include hattack hsr hst

/-- Rule R77 at the level `x`. -/
theorem envelope_attack_level (x : NUM) :
    envelope Arith.rat { v with level := x } =
      if 1 ≤ x + 1 / (v.attack * v.sr) then { v with level := 1, stage := .decay }
      else { v with level := x + 1 / (v.attack * v.sr) } := by
  rw [envelope_attack (v := { v with level := x }) _ hst, Arith.rat_exact.envAttack_eq (v := { v with level := x }) hsr.ne']
  simp [hattack.ne']

/-- The level rises by `1/(attack * sr)` a sample as long as it stays below 1, and for no sample at all. -/
theorem envelope_iterate_attack (hn : n = 0 ∨ v.level + n * (1 / (v.attack * v.sr)) < 1) :
    (envelope Arith.rat)^[n] v = { v with level := v.level + n * (1 / (v.attack * v.sr)) } := by
  apply envelope_iterate_ramp (fun k => v.level + k * (1 / (v.attack * v.sr))) (by simp)
  intro k hk
  have hlt := hn.resolve_left (by omega)
  have hstep : 0 ≤ 1 / (v.attack * v.sr) := one_div_nonneg.mpr (mul_pos hattack hsr).le
  have hmono : ((k + 1 : Nat) : NUM) * (1 / (v.attack * v.sr)) ≤ n * (1 / (v.attack * v.sr)) :=
    mul_le_mul_of_nonneg_right (mod_cast hk) hstep
  have hnext : v.level + k * (1 / (v.attack * v.sr)) + 1 / (v.attack * v.sr) =
      v.level + (k + 1 : Nat) * (1 / (v.attack * v.sr)) := by push_cast; ring
  rw [envelope_attack_level hattack hsr hst, hnext, if_neg (by linarith)]

/-- The sample that reaches 1 ends the attack there. -/
theorem envelope_iterate_attack_end (hn : n = 0 ∨ v.level + n * (1 / (v.attack * v.sr)) < 1)
    (hend : 1 ≤ v.level + (n + 1 : Nat) * (1 / (v.attack * v.sr))) :
    (envelope Arith.rat)^[n + 1] v = { v with level := 1, stage := .decay } := by
  push_cast at hend
  rw [Function.iterate_succ_apply', envelope_iterate_attack hattack hsr hst hn, envelope_attack_level hattack hsr hst,
    if_pos (by linarith)]

end

section
variable (hdecay : 0 < v.decay) (hsr : 0 < v.sr) (hst : v.stage = .decay)
include hdecay hsr hst

/-- Rule R78 at the level `x`. -/
theorem envelope_decay_level (x : NUM) :
    envelope Arith.rat { v with level := x } =
      if x - (1 - v.sustain) / (v.decay * v.sr) ≤ v.sustain then { v with level := v.sustain, stage := .sustain }
      else { v with level := x - (1 - v.sustain) / (v.decay * v.sr) } := by
  rw [envelope_decay (v := { v with level := x }) _ hst, Arith.rat_exact.envDecay_eq (v := { v with level := x }) hsr.ne']
  simp [hdecay.ne']

/-- The level falls by `(1 - sustain)/(decay * sr)` a sample as long as it stays above the sustain level, and for no sample at
all. -/
theorem envelope_iterate_decay (hsustain : v.sustain < 1)
    (hn : n = 0 ∨ v.sustain < v.level - n * ((1 - v.sustain) / (v.decay * v.sr))) :
    (envelope Arith.rat)^[n] v = { v with level := v.level - n * ((1 - v.sustain) / (v.decay * v.sr)) } := by
  apply envelope_iterate_ramp (fun k => v.level - k * ((1 - v.sustain) / (v.decay * v.sr))) (by simp)
  intro k hk
  have hgt := hn.resolve_left (by omega)
  have hstep : 0 ≤ (1 - v.sustain) / (v.decay * v.sr) := div_nonneg (sub_pos.mpr hsustain).le (mul_pos hdecay hsr).le
  have hmono : ((k + 1 : Nat) : NUM) * ((1 - v.sustain) / (v.decay * v.sr)) ≤ n * ((1 - v.sustain) / (v.decay * v.sr)) :=
    mul_le_mul_of_nonneg_right (mod_cast hk) hstep
  have hnext : v.level - k * ((1 - v.sustain) / (v.decay * v.sr)) - (1 - v.sustain) / (v.decay * v.sr) =
      v.level - (k + 1 : Nat) * ((1 - v.sustain) / (v.decay * v.sr)) := by push_cast; ring
  rw [envelope_decay_level hdecay hsr hst, hnext, if_neg (by linarith)]

/-- The sample that reaches the sustain level, or would undershoot it, ends the decay on it. -/
theorem envelope_iterate_decay_end (hsustain : v.sustain < 1)
    (hn : n = 0 ∨ v.sustain < v.level - n * ((1 - v.sustain) / (v.decay * v.sr)))
    (hend : v.level - (n + 1 : Nat) * ((1 - v.sustain) / (v.decay * v.sr)) ≤ v.sustain) :
    (envelope Arith.rat)^[n + 1] v = { v with level := v.sustain, stage := .sustain } := by
  push_cast at hend
  rw [Function.iterate_succ_apply', envelope_iterate_decay hdecay hsr hst hsustain hn, envelope_decay_level hdecay hsr hst,
    if_pos (by linarith)]

end

/-- Rule R80 at the level `x`. -/
theorem envelope_release_level (hst : v.stage = .release) (x : NUM) :
    envelope Arith.rat { v with level := x } =
      if x - v.rstep ≤ 0 then { v with level := 0, stage := .off } else { v with level := x - v.rstep } := by
  rw [envelope_release (v := { v with level := x }) _ hst, Arith.rat_exact.envRelease_eq]

section
variable (hrstep : 0 ≤ v.rstep) (hst : v.stage = .release)
include hrstep hst

/-- The level falls by the release step a sample as long as it stays above 0, and for no sample at all. -/
theorem envelope_iterate_release (hn : n = 0 ∨ 0 < v.level - n * v.rstep) :
    (envelope Arith.rat)^[n] v = { v with level := v.level - n * v.rstep } := by
  apply envelope_iterate_ramp (fun k => v.level - k * v.rstep) (by simp)
  intro k hk
  have hgt := hn.resolve_left (by omega)
  have hmono : ((k + 1 : Nat) : NUM) * v.rstep ≤ n * v.rstep := mul_le_mul_of_nonneg_right (mod_cast hk) hrstep
  have hnext : v.level - k * v.rstep - v.rstep = v.level - (k + 1 : Nat) * v.rstep := by push_cast; ring
  rw [envelope_release_level hst, hnext, if_neg (by linarith)]

/-- The sample that reaches 0, or would fall below it, ends the release at 0. -/
theorem envelope_iterate_release_end (hn : n = 0 ∨ 0 < v.level - n * v.rstep)
    (hend : v.level - (n + 1 : Nat) * v.rstep ≤ 0) :
    (envelope Arith.rat)^[n + 1] v = { v with level := 0, stage := .off } := by
  push_cast at hend
  rw [Function.iterate_succ_apply', envelope_iterate_release hrstep hst hn, envelope_release_level hst, if_pos (by linarith)]

end

end

/-- Once the envelope step changes nothing more, any further samples leave the Voice so. -/
theorem envelope_iterate_of_fixed {v w : Voice NUM} {k n : Nat} (hk : (envelope Arith.rat)^[k] v = w)
    (hw : envelope Arith.rat w = w) (hkn : k ≤ n) : (envelope Arith.rat)^[n] v = w := by
  obtain ⟨m, rfl⟩ := Nat.exists_eq_add_of_le' hkn
  rw [Function.iterate_add_apply, hk, Function.iterate_fixed hw]

/-- Fewer samples than `max(1, ceil(x))`: none, or fewer than `x`. -/
theorem lt_max_one_ceil {n : Nat} {x : NUM} : n < max 1 ⌈x⌉₊ ↔ n = 0 ∨ (n : NUM) < x := by
  rw [lt_max_iff, Nat.lt_one_iff, Nat.lt_ceil]

/-- A number of steps of size `y / d` stays below `y` as long as it stays below `d`. -/
theorem mul_div_lt_iff {n y d : NUM} (hy : 0 < y) (hd : 0 < d) : n * (y / d) < y ↔ n < d := by
  rw [← mul_div_assoc, div_lt_iff₀ hd, mul_comm y d, mul_lt_mul_iff_left₀ hy]

/-- Settles O43: the level is below 1 exactly as long as fewer samples have gone than `(1 - L) * attack * sr`. -/
theorem attackLength : Obligations.AttackLength := by
  intro s a fs hattack hsr _
  obtain ⟨t, out, p, hrun, hv⟩ := runCommands_vSteps fs { s with v := s.v.noteOn a, rsp := none }
  have below (n : Nat) : n < max 1 ⌈(1 - s.v.level) * s.v.attack * s.v.sr⌉₊ ↔
      n = 0 ∨ s.v.level + n * (1 / (s.v.attack * s.v.sr)) < 1 := by
    rw [lt_max_one_ceil, mul_one_div, ← lt_sub_iff_add_lt', div_lt_iff₀ (mul_pos hattack hsr), mul_assoc]
  refine ⟨t, _, runCommands_cons rfl hrun, fun hlt => ?rising, fun heq => ?ended⟩
  case rising =>
    have hn := (below _).mp hlt
    rw [hv, envelope_iterate_attack (v := s.v.noteOn a) hattack hsr rfl hn]
    refine ⟨rfl, rfl, fun hlevel => ?_⟩
    obtain h0 | hlt1 := hn
    · simpa [h0, Voice.noteOn] using hlevel
    · exact hlt1
  case ended =>
    obtain ⟨m, hm⟩ := Nat.exists_eq_succ_of_ne_zero (n := fs.length) (by omega)
    have hend := not_or.mp (mt (below (m + 1)).mpr (by omega))
    rw [hv, hm, envelope_iterate_attack_end (v := s.v.noteOn a) hattack hsr rfl ((below m).mp (by omega)) (not_lt.mp hend.2)]
    exact ⟨rfl, rfl⟩

/-- Settles O44: the level is above the sustain level exactly as long as fewer samples have gone than `decay * sr`, and rests on
it. -/
theorem decayLength : Obligations.DecayLength := by
  intro s fs hst hlevel hdecay hsr hsustain
  obtain ⟨t, out, p, hrun, hv⟩ := runCommands_vSteps fs s
  have above (n : Nat) : n < max 1 ⌈s.v.decay * s.v.sr⌉₊ ↔
      n = 0 ∨ s.v.sustain < s.v.level - n * ((1 - s.v.sustain) / (s.v.decay * s.v.sr)) := by
    rw [lt_max_one_ceil, ← mul_div_lt_iff (sub_pos.mpr hsustain) (mul_pos hdecay hsr), hlevel, lt_sub_comm]
  refine ⟨t, out, hrun, ?_⟩
  by_cases hlt : fs.length < max 1 ⌈s.v.decay * s.v.sr⌉₊
  · have hn := (above _).mp hlt
    rw [hv, envelope_iterate_decay hdecay hsr hst hsustain hn]
    refine ⟨?_, fun _ => ⟨hst, by dsimp only; rw [hlevel]⟩, fun hge => absurd hlt hge.not_gt⟩
    obtain h0 | hgt := hn
    · simpa [h0, hlevel] using hsustain.le
    · exact hgt.le
  · obtain ⟨m, hm⟩ := Nat.exists_eq_succ_of_ne_zero (n := max 1 ⌈s.v.decay * s.v.sr⌉₊) (by omega)
    have hend := not_or.mp (mt (above (m + 1)).mpr (by omega))
    have hlast := envelope_iterate_decay_end hdecay hsr hst hsustain ((above m).mp (by omega)) (not_lt.mp hend.2)
    rw [hv, envelope_iterate_of_fixed hlast (envelope_sustain _ rfl) (by omega)]
    exact ⟨le_rfl, fun h => absurd h hlt, fun _ => ⟨rfl, rfl⟩⟩

/-- A silent Voice in stage Off rests (rule R81). -/
theorem envelope_of_silent (v : Voice NUM) :
    envelope Arith.rat { v with level := 0, stage := .off } = { v with level := 0, stage := .off } :=
  envelope_off _ rfl

/-- A note-off with a release time sets the release step (rule R69). -/
theorem exec_vNoteOff_of_release_pos {s : State} (hrelease : 0 < s.v.release) (hsr : 0 < s.v.sr) :
    exec .vNoteOff s =
      .next { s with v := { s.v with rstep := s.v.level / (s.v.release * s.v.sr), stage := .release }, rsp := none } := by
  rw [exec_vNoteOff_eq hsr.ne', if_neg hrelease.ne']

/-- Settles O45: with the step `L / (release * sr)` the level is above 0 exactly as long as fewer samples have gone than
`release * sr`; with step 0 the first sample ends the release. -/
theorem releaseLength : Obligations.ReleaseLength := by
  intro s fs hrelease hsr hlevel
  have hd : 0 < s.v.release * s.v.sr := mul_pos hrelease hsr
  have hrstep : 0 ≤ s.v.level / (s.v.release * s.v.sr) := div_nonneg hlevel hd.le
  generalize hoff : { s.v with rstep := s.v.level / (s.v.release * s.v.sr), stage := Stage.release } = v
  obtain ⟨hvlevel, hvstep, hvstage⟩ : v.level = s.v.level ∧ v.rstep = s.v.level / (s.v.release * s.v.sr) ∧
      v.stage = .release := by subst v; exact ⟨rfl, rfl, rfl⟩
  rw [← hvstep] at hrstep
  obtain ⟨t, out, p, hrun, hv⟩ := runCommands_vSteps fs { s with v := v, rsp := none }
  refine ⟨t, _, runCommands_cons (hoff ▸ exec_vNoteOff_of_release_pos hrelease hsr) hrun, fun hpos => ?above,
    fun hzero => ?zero⟩
  case above =>
    have above (n : Nat) : n < ⌈s.v.release * s.v.sr⌉₊ ↔ 0 < v.level - n * v.rstep := by
      rw [Nat.lt_ceil, ← mul_div_lt_iff hpos hd, hvlevel, hvstep, sub_pos]
    refine ⟨fun hlt => ?_, fun hge => ?_⟩
    · have hn := (above _).mp hlt
      rw [hv, envelope_iterate_release hrstep hvstage (.inr hn)]
      refine ⟨hvstage, ?_, hn⟩
      dsimp only
      rw [hvlevel, hvstep, mul_div_assoc]
    · obtain ⟨m, hm⟩ := Nat.exists_eq_succ_of_ne_zero (Nat.ceil_pos.mpr hd).ne'
      have hend := not_lt.mp (mt (above (m + 1)).mpr (by omega))
      have hlast := envelope_iterate_release_end hrstep hvstage (.inr ((above m).mp (by omega))) hend
      rw [hv, envelope_iterate_of_fixed hlast (envelope_of_silent v) (by omega)]
      exact ⟨rfl, rfl⟩
  case zero =>
    have hlast := envelope_iterate_release_end (n := 0) hrstep hvstage (.inl rfl) (by simp [hvlevel, hvstep, hzero])
    by_cases hnone : fs.length = 0
    · rw [hv, hnone]
      exact ⟨hvlevel.trans hzero, by simp [hvstage]⟩
    · rw [hv, envelope_iterate_of_fixed hlast (envelope_of_silent v) (by omega)]
      exact ⟨rfl, iff_of_true rfl (by omega)⟩

/-- Settles O46: the second note-off finds the release time and the rate of the first, and the level after the sample. -/
theorem secondNoteOffRecomputesStep : Obligations.SecondNoteOffRecomputesStep := by
  intro s f hrelease hsr
  have hfirst := exec_vNoteOff_of_release_pos hrelease hsr
  obtain ⟨w, hw, hww⟩ := exec_idempotent .vNoteOff s rfl
  have hrun := runCommands_cons hfirst (runCommands_cons (exec_vStep_eq f _) (runCommands_nil _))
  refine ⟨_, _, w, _, _, hrun, exec_vNoteOff_of_release_pos ?_ ?_, ?_, rfl, rfl, ?_, rfl,
    runCommands_cons hw (runCommands_cons hww rfl), hw⟩
  · simpa using hrelease
  · simpa using hsr
  · simp
  · simp

/-- An attack of no time ends with its first sample (rule R77), whatever the rate. -/
theorem envelope_attack_zero {v : Voice NUM} (hst : v.stage = .attack) (hattack : v.attack = 0) :
    envelope Arith.rat v = { v with level := 1, stage := .decay } := by
  rw [envelope_attack _ hst]
  simp [envAttack, Arith.rat_exact.eq, Arith.rat_exact.zero, Arith.rat_exact.one, hattack]

/-- A decay of no time ends with its first sample (rule R78), whatever the rate. -/
theorem envelope_decay_zero {v : Voice NUM} (hst : v.stage = .decay) (hdecay : v.decay = 0) :
    envelope Arith.rat v = { v with level := v.sustain, stage := .sustain } := by
  rw [envelope_decay _ hst]
  simp [envDecay, Arith.rat_exact.eq, Arith.rat_exact.zero, hdecay]

/-- Settles O42: each sample runs the rule of one stage (rule R76), so the attack and the decay take one each. -/
theorem oneTransitionPerSample : Obligations.OneTransitionPerSample := by
  intro s a f g hattack hdecay
  obtain ⟨t, out, p, hrun, ht⟩ := runCommands_vSteps [f] { s with v := s.v.noteOn a, rsp := none }
  obtain ⟨u, out', q, hrun', hu⟩ := runCommands_vSteps [g] t
  rw [List.length_singleton, Function.iterate_one] at ht hu
  rw [envelope_attack_zero (v := s.v.noteOn a) rfl hattack] at ht
  obtain ⟨hlevel, hstage, hdecay', hsustain⟩ :
      t.v.level = 1 ∧ t.v.stage = .decay ∧ t.v.decay = 0 ∧ t.v.sustain = s.v.sustain := by
    rw [ht]
    exact ⟨rfl, rfl, hdecay, rfl⟩
  rw [envelope_decay_zero hstage hdecay'] at hu
  refine ⟨t, u, _, out', runCommands_cons rfl hrun, hlevel, hstage, hrun', ?_, ?_⟩
  · rw [hu]
    exact hsustain
  · rw [hu]

end Sys2Proof.Machine
end

section
/-! The oscillators over many samples (rules R84, R90): inside the host's range a phase is the fractional part of its start plus the
summed increments. -/

namespace Sys2Proof.Machine

/-- A fractional part may be taken before an addition or after it. -/
theorem fract_fract_add (a b : NUM) : Int.fract (Int.fract a + b) = Int.fract (a + b) := by
  rw [Int.fract_eq_fract]
  exact ⟨-⌊a⌋, by rw [Int.fract]; push_cast; ring⟩

theorem fract_of_inUnit {p : NUM} (hp : InUnit p) : Int.fract p = p := Int.fract_eq_self.mpr hp

/-- Settles O47, by induction on the samples. -/
theorem voicePhaseIsFractionalPart : Obligations.VoicePhaseIsFractionalPart := by
  intro s fs hsr hp hrange
  induction fs generalizing s with
  | nil => exact ⟨s, [], rfl, by simp [fract_of_inUnit hp], rfl⟩
  | cons f fs ih =>
    obtain ⟨⟨h0, h1⟩, hrest⟩ := List.forall_mem_cons.mp hrange
    have hphase : (s.v.tick Arith.rat s.cfg.wrap f).phase = Int.fract (s.v.phase + f / s.v.sr) := by
      rw [Voice.tick_phase, Arith.rat_exact.advance_div_eq_fract _ hp hsr h0 h1]
    have hrate : (s.v.tick Arith.rat s.cfg.wrap f).sr = s.v.sr := Voice.tick_sr ..
    obtain ⟨t, out, hrun, ht, hlength⟩ := ih
      { s with v := s.v.tick Arith.rat s.cfg.wrap f, rsp := some (s.v.output Arith.rat s.cfg.wrap f) }
      (by rw [hrate]; exact hsr) (by rw [hphase]; exact inUnit_fract _) (by rw [hrate]; exact hrest)
    refine ⟨t, _, runCommands_cons (exec_vStep_eq f s) hrun, ?_, by simp [hlength]⟩
    rw [ht, hphase, hrate, fract_fract_add, List.sum_cons]
    congr 1
    ring

/-- A run of `L_STEP` in the host's range. -/
theorem runCommands_lStepN (n : Nat) {s : State} (hsr : 1 ≤ s.l.sr) (hp : InUnit s.l.phase) (h0 : 0 ≤ s.l.freq)
    (h1 : s.l.freq ≤ s.l.sr) :
    ∃ t out, runCommands (lStepN n) s = .next (t, out) ∧
      t.l = { s.l with phase := Int.fract (s.l.phase + n * (s.l.freq / s.l.sr)) } ∧ out.length = n := by
  induction n generalizing s with
  | zero => exact ⟨s, [], rfl, by simp [fract_of_inUnit hp], rfl⟩
  | succ n ih =>
    have htick : s.l.tick Arith.rat s.cfg.wrap =
        { s.l with phase := Int.fract (s.l.phase + s.l.freq / s.l.sr) } := by
      rw [Lfo.tick, Arith.rat_exact.advance_div_eq_fract _ hp hsr h0 h1]
    have hexec := exec_lStep_eq s
    rw [htick] at hexec
    obtain ⟨t, out, hrun, ht, hlength⟩ := ih
      (s := { s with l := { s.l with phase := Int.fract (s.l.phase + s.l.freq / s.l.sr) },
                     rsp := some (s.l.output Arith.rat) }) hsr (inUnit_fract _) h0 h1
    refine ⟨t, _, runCommands_cons hexec hrun, ?_, by simp [hlength]⟩
    rw [ht]
    dsimp only
    rw [fract_fract_add]
    push_cast
    congr 2
    ring

/-- At frequency 0, and at the rate, one sample leaves the LFO as it was. -/
theorem Lfo.tick_constant {l : Lfo NUM} (wrap : PhaseWrap) (hsr : 1 ≤ l.sr) (hp : InUnit l.phase)
    (hfreq : l.freq = 0 ∨ l.freq = l.sr) : l.tick Arith.rat wrap = l := by
  have hphase : Int.fract (l.phase + l.freq / l.sr) = l.phase := by
    obtain h | h := hfreq
    · rw [h, zero_div, add_zero, fract_of_inUnit hp]
    · rw [h, div_self (one_pos.trans_le hsr).ne', Int.fract_add_one, fract_of_inUnit hp]
  obtain ⟨h0, h1⟩ : 0 ≤ l.freq ∧ l.freq ≤ l.sr := by
    obtain h | h := hfreq <;> rw [h] <;> constructor <;> linarith
  rw [Lfo.tick, Arith.rat_exact.advance_div_eq_fract wrap hp hsr h0 h1, hphase]

/-- Settles O48: a constant LFO by induction on the samples; where the rate is `n` times the frequency the `n` increments sum to
1. -/
theorem lfoConstantOrPeriodic : Obligations.LfoConstantOrPeriodic := by
  refine ⟨fun s n hsr hp hfreq => ?constant, fun s n hsr hp h0 h1 hn => ?periodic⟩
  case constant =>
    induction n generalizing s with
    | zero => exact ⟨s, rfl, rfl⟩
    | succ n ih =>
      have hexec := exec_lStep_eq s
      rw [Lfo.tick_constant _ hsr hp hfreq] at hexec
      obtain ⟨t, hrun, ht⟩ := ih { s with rsp := some (s.l.output Arith.rat) } hsr hp hfreq
      exact ⟨t, runCommands_cons hexec hrun, ht⟩
  case periodic =>
    obtain ⟨t, out, hrun, ht, hlength⟩ := runCommands_lStepN n hsr hp h0.le h1
    have hcycle : (n : NUM) * (s.l.freq / s.l.sr) = 1 := by
      rw [← mul_div_assoc, ← hn, div_self (one_pos.trans_le hsr).ne']
    refine ⟨t, out, hrun, ?_, hlength⟩
    rw [ht, hcycle, Int.fract_add_one, fract_of_inUnit hp]

end Sys2Proof.Machine
end

section
/-! The pseudo-commands (rule R57) and the Engine's structural commands, which the host makes of them (rules R94 to R96). -/

namespace Sys2Proof

namespace Machine

/-- A command that drives no response, ahead of a sequence. -/
theorem runCommands_cons_silent {i : Instr} (is : List Instr) {s s' : State} (h : exec i s = .next s')
    (hrsp : s'.rsp = none) : runCommands (i :: is) s = runCommands is s' := by
  obtain ⟨t, out, hrun⟩ := runCommands_completes is s'
  rw [runCommands_cons h hrun, hrun, hrsp]
  rfl

/-- A run of step commands drives one response each. -/
theorem runCommands_length {is : List Instr} {s t : State} {out : List NUM} (hstep : ∀ i ∈ is, i.returnsSample = true)
    (hrun : runCommands is s = .next (t, out)) : out.length = is.length := by
  induction is generalizing s out with
  | nil => cases hrun; rfl
  | cons i is ih =>
    obtain ⟨s', out', hexec, hrest, rfl⟩ := runCommands_cons_inv hrun
    obtain ⟨hi, his⟩ := List.forall_mem_cons.mp hstep
    obtain ⟨x, hx⟩ := Option.isSome_iff_exists.mp ((exec_rsp_isSome hexec).trans hi)
    simp [hx, ih his hrest]

/-- `n + 1` of one step command are the first one and then `n` more (rule R57). -/
theorem runCommands_replicate_succ (i : Instr) (hi : i.returnsSample = true) (n : Nat) (s : State) :
    ∃ t x u out, exec i s = .next t ∧ t.rsp = some x ∧ runCommands (List.replicate n i) t = .next (u, out) ∧
      out.length = n ∧ runCommands (List.replicate (n + 1) i) s = .next (u, x :: out) := by
  obtain ⟨t, hexec⟩ := exec_completes i s
  obtain ⟨x, hx⟩ := Option.isSome_iff_exists.mp ((exec_rsp_isSome hexec).trans hi)
  obtain ⟨u, out, hrun⟩ := runCommands_completes (List.replicate n i) t
  have hlength := runCommands_length (fun j hj => (List.eq_of_mem_replicate hj).symm ▸ hi) hrun
  refine ⟨t, x, u, out, hexec, hx, hrun, by simpa using hlength, ?_⟩
  rw [List.replicate_succ, runCommands_cons hexec hrun, hx]
  rfl

/-! The setters' whole next states, with their clamps (rules R58, R60 to R63, R85, R87). -/

theorem exec_vSetSr_eq (a : NUM) (s : State) :
    exec (.vSetSr a) s = .next { s with v := { s.v with sr := if a < 1 then 1 else a }, rsp := none } := by
  rw [exec_vSetSr, Regs.vSetSr, Arith.rat_exact.setSr_eq, State.answer_setV]

theorem exec_vSetAttack_eq (a : NUM) (s : State) :
    exec (.vSetAttack a) s = .next { s with v := { s.v with attack := if a < 0 then 0 else a }, rsp := none } := by
  rw [exec_vSetAttack, Regs.vSetAttack, Arith.rat_exact.setAttack_eq, State.answer_setV]

theorem exec_vSetDecay_eq (a : NUM) (s : State) :
    exec (.vSetDecay a) s = .next { s with v := { s.v with decay := if a < 0 then 0 else a }, rsp := none } := by
  rw [exec_vSetDecay, Regs.vSetDecay, Arith.rat_exact.setDecay_eq, State.answer_setV]

theorem exec_vSetSustain_eq (a : NUM) (s : State) :
    exec (.vSetSustain a) s =
      .next { s with v := { s.v with sustain := if a < 0 then 0 else if a > 1 then 1 else a }, rsp := none } := by
  rw [exec_vSetSustain, Regs.vSetSustain, Arith.rat_exact.setSustain_eq, State.answer_setV]

theorem exec_vSetRelease_eq (a : NUM) (s : State) :
    exec (.vSetRelease a) s = .next { s with v := { s.v with release := if a < 0 then 0 else a }, rsp := none } := by
  rw [exec_vSetRelease, Regs.vSetRelease, Arith.rat_exact.setRelease_eq, State.answer_setV]

theorem exec_lSetSr_eq (a : NUM) (s : State) :
    exec (.lSetSr a) s = .next { s with l := { s.l with sr := if a < 1 then 1 else a }, rsp := none } := by
  rw [exec_lSetSr, Regs.lSetSr, Arith.rat_exact.lfo_setSr_eq, State.answer_setL]

/-! The pseudo-commands that only write registers. -/

theorem runCommands_vConfig (s : State) (sr a d su r : NUM) (w : Wave) :
    runCommands (vConfig sr w a d su r) s =
      .next ({ s with v := { s.v with sr := if sr < 1 then 1 else sr, wave := w, attack := if a < 0 then 0 else a,
                                      decay := if d < 0 then 0 else d,
                                      sustain := if su < 0 then 0 else if su > 1 then 1 else su,
                                      release := if r < 0 then 0 else r }, rsp := none }, []) := by
  rw [vConfig, runCommands_cons_silent _ (exec_vSetSr_eq sr _) rfl, runCommands_cons_silent _ (exec_vSetWave_tag w _) rfl,
    runCommands_cons_silent _ (exec_vSetAttack_eq a _) rfl, runCommands_cons_silent _ (exec_vSetDecay_eq d _) rfl,
    runCommands_cons_silent _ (exec_vSetSustain_eq su _) rfl, runCommands_cons_silent _ (exec_vSetRelease_eq r _) rfl,
    runCommands_nil]

theorem runCommands_lConfig (s : State) (sr f : NUM) (w : Wave) :
    runCommands (lConfig sr w f) s =
      .next ({ s with l := { s.l with sr := if sr < 1 then 1 else sr, wave := w, freq := f }, rsp := none }, []) := by
  rw [lConfig, runCommands_cons_silent _ (exec_lSetSr_eq sr _) rfl, runCommands_cons_silent _ (exec_lSetWave_tag w _) rfl,
    runCommands_cons_silent _ (exec_lSetFreq f _) rfl, runCommands_nil]
  rfl

theorem runCommands_setSrAll (s : State) (sr : NUM) :
    runCommands (setSrAll sr) s =
      .next ({ s with v := { s.v with sr := if sr < 1 then 1 else sr }, l := { s.l with sr := if sr < 1 then 1 else sr },
                      rsp := none }, []) := by
  rw [setSrAll, runCommands_cons_silent _ (exec_vSetSr_eq sr _) rfl, runCommands_cons_silent _ (exec_lSetSr_eq sr _) rfl,
    runCommands_nil]

theorem runCommands_addVoice (s : State) (sr pitch : NUM) (w : Wave) :
    runCommands (addVoice sr w pitch) s =
      .next ({ s with v := { s.v with sr := if sr < 1 then 1 else sr, wave := w, freq := pitch, stage := .attack },
                      rsp := none }, []) := by
  rw [addVoice, runCommands_cons_silent _ (exec_vSetSr_eq sr _) rfl, runCommands_cons_silent _ (exec_vSetWave_tag w _) rfl,
    runCommands_cons_silent _ (exec_vNoteOn pitch _) rfl, runCommands_nil]
  rfl

/-- Settles O49: the register-writing sequences command by command, the runs of step commands one command at a time, and `TICK` as
its two commands. -/
theorem pseudoCommands : Obligations.PseudoCommands := by
  intro s c sr a d su r f pitch depth w n
  refine ⟨runCommands_vConfig s sr a d su r w, runCommands_lConfig s sr f w,
    ⟨rfl, runCommands_replicate_succ (.vStep f) rfl n s⟩, ⟨rfl, runCommands_replicate_succ .lStep rfl n s⟩,
    runCommands_setSrAll s sr, ?tick, runCommands_addVoice (State.resetWith c) sr pitch w⟩
  case tick =>
    exact ⟨_, _, _, _, exec_lStep_eq s, rfl, exec_vStep_eq _ _, rfl,
      runCommands_cons (exec_lStep_eq s) (runCommands_cons (exec_vStep_eq _ _) (runCommands_nil _))⟩

/-! The structural commands (rule R94). -/

section
variable {N : Type} (A : Arith N) (e : Engine N)

/-- A position that is no index of the collection changes nothing (rules R94, R110). -/
theorem Engine.apply_of_invalid {p : Int} (hp : ¬ e.Valid p) (f : N) :
    e.apply A (.removeVoice p) = e ∧ e.apply A (.setVoiceFrequency p f) = e :=
  ⟨if_neg hp, if_neg hp⟩

theorem Engine.valid_natCast {p : Nat} (hp : p < e.voices.length) : e.Valid p :=
  ⟨Int.natCast_nonneg p, by exact_mod_cast hp⟩

theorem Engine.apply_removeVoice {p : Nat} (hp : p < e.voices.length) :
    e.apply A (.removeVoice p) = { e with voices := e.voices.eraseIdx p } :=
  if_pos (e.valid_natCast hp)

theorem Engine.apply_setVoiceFrequency {p : Nat} (hp : p < e.voices.length) (f : N) :
    e.apply A (.setVoiceFrequency p f) = { e with voices := e.voices.modify p fun v => v.setFreq f } :=
  if_pos (e.valid_natCast hp)

end

/-- A new voice is the one that the ADD_VOICE sequence makes on a reset Voice (rule R94). -/
theorem Engine.newVoice_eq (e : Engine NUM) :
    e.newVoice Arith.rat =
      { Voice.reset 0 e.cfg.reset with sr := if e.sr < 1 then 1 else e.sr, wave := e.defaultWave, freq := e.masterPitch,
                                       stage := .attack } := by
  rw [newVoice, Arith.rat_exact.setSr_eq]
  rfl

/-- Settles O51: a new voice, an invalid position, and the list that each of the other two commands leaves. -/
theorem engineStructuralCommands : Obligations.EngineStructuralCommands := by
  intro e
  refine ⟨⟨_, runCommands_addVoice (State.resetWith e.cfg) e.sr e.masterPitch e.defaultWave, ?added⟩,
    fun p f hp => e.apply_of_invalid _ hp f, fun p f hp => ?valid⟩
  case added =>
    rw [Engine.apply, Engine.newVoice_eq]
    rfl
  case valid =>
    dsimp only
    rw [e.apply_removeVoice _ hp, e.apply_setVoiceFrequency _ hp]
    exact ⟨rfl, List.length_eraseIdx_add_one hp, fun q hq => List.getElem?_eraseIdx_of_lt hq,
      fun q hq => List.getElem?_eraseIdx_of_ge hq, rfl, List.getElem?_modify_eq _ _ _,
      fun q hq => List.getElem?_modify_ne _ _ (Ne.symm hq)⟩

/-- Settles O52: the clamped rate of every voice and of the LFO; the scalars are fields apart. -/
theorem engineSampleRateAndScalars : Obligations.EngineSampleRateAndScalars := by
  intro e sr x
  refine ⟨?_, ⟨rfl, rfl, rfl⟩, ⟨rfl, rfl, rfl⟩, rfl⟩
  simp only [Engine.setSampleRate, Arith.rat_exact.setSr_eq, Arith.rat_exact.lfo_setSr_eq]

end Machine

end Sys2Proof
end

section
/-! The Engine's queue and its rendering (rules R92, R93, R97, R100, R101), over any numeric domain; the sum's range and the phases in
the exact ones. -/

namespace Sys2Proof

namespace Machine

section
variable {N : Type} (A : Arith N)

/-! The queue (rule R97). -/

theorem Engine.push_of_full {e : Engine N} (h : e.capacity ≤ e.queue.length) (c : EngineCmd N) :
    e.push c = (false, e) :=
  if_neg h.not_gt

theorem Engine.push_of_room {e : Engine N} (h : e.queue.length < e.capacity) (c : EngineCmd N) :
    e.push c = (true, { e with queue := e.queue ++ [c] }) :=
  if_pos h

theorem Engine.pop_of_nil {e : Engine N} (h : e.queue = []) : e.pop = (none, e) := by
  rw [pop, h]

theorem Engine.pop_of_cons {e : Engine N} {c : EngineCmd N} {cs : List (EngineCmd N)} (h : e.queue = c :: cs) :
    e.pop = (some c, { e with queue := cs }) := by
  rw [pop, h]

/-- Commands pushed while there is room stand behind the earlier ones in push order. -/
theorem Engine.foldl_push_queue (cs : List (EngineCmd N)) (e : Engine N) (h : e.queue.length + cs.length ≤ e.capacity) :
    (cs.foldl (fun e c => (e.push c).2) e).queue = e.queue ++ cs := by
  induction cs generalizing e with
  | nil => exact (List.append_nil _).symm
  | cons c cs ih =>
    rw [List.length_cons] at h
    rw [List.foldl_cons, push_of_room (by omega), ih _ (by simp only [List.length_append, List.length_singleton]; omega),
      List.append_assoc, List.singleton_append]

/-- Settles O50: the two ends of the queue, full and empty, and its order. -/
theorem engineQueueIsFifo : Obligations.EngineQueueIsFifo :=
  fun _ => ⟨fun _ c h => Engine.push_of_full h c, fun _ => Engine.pop_of_nil, fun e cs => Engine.foldl_push_queue cs e,
    fun _ _ _ => Engine.pop_of_cons⟩

/-! Draining the queue (rule R93). -/

/-- A structural command neither reads nor writes the queue (rule R94). -/
theorem Engine.apply_withQueue (e : Engine N) (q : List (EngineCmd N)) (c : EngineCmd N) :
    ({ e with queue := q } : Engine N).apply A c = { e.apply A c with queue := q } := by
  cases c with
  | addVoice => rfl
  | removeVoice p =>
    by_cases hp : e.Valid p
    · simp only [apply, if_pos hp]
    · simp only [apply, if_neg hp]
  | setVoiceFrequency p f =>
    by_cases hp : e.Valid p
    · simp only [apply, if_pos hp]
    · simp only [apply, if_neg hp]

theorem Engine.foldl_apply_withQueue (cs q : List (EngineCmd N)) (e : Engine N) :
    cs.foldl (Engine.apply A) { e with queue := q } = { cs.foldl (Engine.apply A) e with queue := q } := by
  induction cs generalizing e with
  | nil => rfl
  | cons c cs ih => rw [List.foldl_cons, List.foldl_cons, apply_withQueue, ih]

/-! Rendering: what `n` samples return, and what they leave alone. -/

theorem Engine.renderSamples_length (n : Nat) (e : Engine N) : (renderSamples A n e).1.length = n := by
  induction n generalizing e with
  | zero => rfl
  | succ n ih => exact congrArg Nat.succ (ih _)

theorem Engine.renderSamples_queue (n : Nat) (e : Engine N) : (renderSamples A n e).2.queue = e.queue := by
  induction n generalizing e with
  | zero => rfl
  | succ n ih => exact ih _

/-- Rendering steps the voices and adds or removes none (rule R92). -/
theorem Engine.renderSamples_voices_length (n : Nat) (e : Engine N) :
    (renderSamples A n e).2.voices.length = e.voices.length := by
  induction n generalizing e with
  | zero => rfl
  | succ n ih => exact (ih _).trans (List.length_map _)

/-- A block is its samples, from the Engine with the pending commands applied and the queue empty (rule R93). -/
theorem Engine.renderBlock_eq (n : Nat) (e : Engine N) :
    e.renderBlock A n = renderSamples A n { e.queue.foldl (Engine.apply A) e with queue := [] } := by
  rw [renderBlock, applyPending, foldl_apply_withQueue]

/-- With nothing pending a block is its samples. -/
theorem Engine.renderBlock_of_nil (n : Nat) {e : Engine N} (h : e.queue = []) : e.renderBlock A n = renderSamples A n e := by
  rw [renderBlock, applyPending, h, List.foldl_nil, ← h]

/-- With one command pending a block is its samples after that command. -/
theorem Engine.renderBlock_of_singleton (n : Nat) (e : Engine N) (c : EngineCmd N) (h : e.queue = []) :
    ({ e with queue := [c] } : Engine N).renderBlock A n = renderSamples A n (e.apply A c) := by
  rw [renderBlock, applyPending, List.foldl_cons, List.foldl_nil, ← h]

end

/-- Settles O55: the drain commutes with emptying the queue, which rendering does not touch. -/
theorem renderBlockDrainsThenRenders : Obligations.RenderBlockDrainsThenRenders := by
  intro N A e n
  refine ⟨e.renderBlock_eq A n, Engine.renderSamples_length A n _, ?_⟩
  rw [e.renderBlock_eq, Engine.renderSamples_queue]

/-- Settles O56: the constructed Engine has one voice and room for a command where its capacity is above 0; position 5 is no index
of its collection. -/
theorem engineConstructedWithOneVoice : Obligations.EngineConstructedWithOneVoice := by
  intro N A c v sr w pitch rate depth capacity n e
  have hqueue : e.queue = [] := rfl
  have hvoices : e.voices.length = 1 := rfl
  refine ⟨rfl, rfl, rfl, ?quiet, fun hroom => ?added, ?removed⟩
  case quiet => rw [e.renderBlock_of_nil A n hqueue, Engine.renderSamples_voices_length, hvoices]
  case added =>
    have hpush : e.push .addVoice = (true, { e with queue := [.addVoice] }) := Engine.push_of_room (e := e) hroom _
    rw [hpush]
    refine ⟨rfl, ?_⟩
    rw [e.renderBlock_of_singleton A n _ hqueue, Engine.renderSamples_voices_length]
    rfl
  case removed =>
    by_cases hroom : 0 < capacity
    · have hpush : e.push (.removeVoice 5) = (true, { e with queue := [.removeVoice 5] }) := Engine.push_of_room (e := e) hroom _
      have hinvalid : ¬ e.Valid 5 := by simp [hvoices]
      rw [hpush, e.renderBlock_of_singleton A n _ hqueue, e.renderBlock_of_nil A n hqueue,
        (e.apply_of_invalid A hinvalid pitch).1]
    · rw [Engine.push_of_full (e := e) (not_lt.mp hroom)]

/-! One rendered sample in the exact domains. -/

section
variable {N : Type} [Field N] [LinearOrder N] [FloorRing N] {A : Arith N}

/-- The host's sum (rule R92). -/
theorem mix_eq_sum (h : A.Exact) (xs : List N) : mix A xs = xs.sum := by
  rw [mix, h.zero, show A.add = (· + ·) from funext fun x => funext (h.add x), List.sum_eq_foldl]

theorem Engine.fm_eq (h : A.Exact) (e : Engine N) : e.fm A = e.masterPitch + e.lfo.output A * e.lfoDepth := by
  rw [fm, modulated, h.add, h.mul]

variable [IsStrictOrderedRing N]

/-- A sum of samples of magnitude at most 1/5 (rule R100). -/
theorem abs_sum_le_length_div_five {xs : List N} (h : ∀ x ∈ xs, |x| ≤ 1 / 5) : |xs.sum| ≤ xs.length / 5 := by
  have hupper := xs.sum_le_card_nsmul (1 / 5) fun x hx => (abs_le.mp (h x hx)).2
  have hlower := xs.card_nsmul_le_sum (-(1 / 5)) fun x hx => (abs_le.mp (h x hx)).1
  rw [nsmul_eq_mul] at hupper hlower
  exact abs_le.mpr ⟨by linarith, by linarith⟩

/-- The magnitude of one rendered sample (rules R82, R100, R125). -/
theorem Engine.abs_renderSample_le (h : A.Exact) (e : Engine N) (hvoices : ∀ v ∈ e.voices, v.Inv ∧ InUnit v.phase) :
    |(e.renderSample A).1| ≤ e.voices.length / 5 := by
  have hsamples : ∀ x ∈ e.voiceSamples A, |x| ≤ 1 / 5 := by
    intro x hx
    obtain ⟨v, hv, rfl⟩ := List.mem_map.mp hx
    obtain ⟨hinv, hphase⟩ := hvoices v hv
    exact h.abs_output_le _ _ hinv hphase
  have hlength : (e.voiceSamples A).length = e.voices.length := List.length_map _
  rw [renderSample, mix_eq_sum h, ← hlength]
  exact abs_sum_le_length_div_five hsamples

/-- The modulated frequency stays within the depth of the pitch, as the LFO's sample stays in `[-1,1]` (rules R89, R122). -/
theorem Engine.fm_range (h : A.Exact) (e : Engine N) (hp : InUnit e.lfo.phase) :
    e.masterPitch - |e.lfoDepth| ≤ e.fm A ∧ e.fm A ≤ e.masterPitch + |e.lfoDepth| := by
  have hm : |e.lfo.output A| ≤ 1 := abs_le.mpr (h.wave_range _ hp)
  have hoffset : |e.lfo.output A * e.lfoDepth| ≤ |e.lfoDepth| := by
    rw [abs_mul]
    exact mul_le_of_le_one_left (abs_nonneg _) hm
  obtain ⟨hlow, hhigh⟩ := abs_le.mp hoffset
  rw [e.fm_eq h]
  exact ⟨by linarith, by linarith⟩

end

/-- Settles O53: the host's sum and its operand in the exact domain, and the bound of the voices' samples. -/
theorem renderSampleSumsVoices : Obligations.RenderSampleSumsVoices := by
  intro N _ _ _ _ A h e fm
  have hfm : e.fm A = fm := e.fm_eq h
  refine ⟨?sum, fun hnone => ?none, fun hvoices => ?bound⟩
  case sum => rw [Engine.renderSample, Engine.voiceSamples, mix_eq_sum h, hfm]
  case none => rw [Engine.renderSample, Engine.voiceSamples, mix_eq_sum h, hnone, List.map_nil, List.sum_nil]
  case bound =>
    have hbound := e.abs_renderSample_le h hvoices
    refine ⟨hbound, fun hfive => hbound.trans ?_⟩
    rw [div_le_one (by norm_num)]
    exact_mod_cast hfive

/-- Settles O54: the LFO's own step, and each voice's at an operand of its range. -/
theorem renderSampleKeepsPhases : Obligations.RenderSampleKeepsPhases := by
  intro N _ _ _ _ A h e hsr hp h0 h1 hvoices
  refine ⟨h.inUnit_lfo_phase _ hsr hp h0 h1, fun v hv => ?_⟩
  obtain ⟨u, hu, rfl⟩ := List.mem_map.mp hv
  obtain ⟨husr, hup, hlow, hhigh⟩ := hvoices u hu
  obtain ⟨hfmlow, hfmhigh⟩ := e.fm_range h hp
  exact h.inUnit_voice_phase _ husr hup (hlow.trans hfmlow) (hfmhigh.trans hhigh)

end Machine

end Sys2Proof
end
